-- ==== Sys2Proof/Word.lean ====
section
/-!
DEFINITION. The widths of the machine: the word, the immediate field and the register index
(spec 00_scope.md R5, R7; 10_state.md R20; 30_encoding.md R80).
-/
namespace Sys2Proof

/-- A word: "a 32-bit storage unit", bits 31 down to 0 (R5, R7). Its unsigned reading `u` is
`BitVec.toNat`, its two's-complement reading `s` is `BitVec.toInt`; `+` wraps modulo 2^32 (R8). -/
abbrev Word := BitVec 32

/-- The 16-bit immediate field `imm16` of an instruction (R5, R80). -/
abbrev Half := BitVec 16

/-- The index of a general register, 0 to 31 (R20, R80). -/
abbrev Reg := Fin 32

end Sys2Proof
end

