-- ==== Sys2Proof/Syntax.lean ====
section
/-!
DEFINITION. The abstract instruction record of spec 30_encoding.md R80: exactly seven constructors,
one per row of spec/opcode_table.json, and the register roles of 10_state.md R23.
-/
namespace Sys2Proof

/-- An encoded instruction: an operation tag and its resolved operands (R80). `rd` is the
destination, `rs` the first source or the base register, `rt` the second source or the stored
register (00_scope.md R11). -/
inductive Instr where
  /-- bitwise and (R141) -/
  | and (rd rs rt : Reg)
  /-- add immediate; `imm16` is signed (R142) -/
  | addi (rd rs : Reg) (imm16 : Half)
  /-- set on less than, signed (R143) -/
  | slt (rd rs rt : Reg)
  /-- load upper immediate; `imm16` is the unsigned upper half (R144) -/
  | lui (rd : Reg) (imm16 : Half)
  /-- load word; `imm16` is a signed byte offset (R161) -/
  | lw (rd rs : Reg) (imm16 : Half)
  /-- store word; `imm16` is a signed byte offset (R162) -/
  | sw (rt rs : Reg) (imm16 : Half)
  /-- branch on equal; `imm16` is a signed offset in instructions (R180) -/
  | beq (rs rt : Reg) (imm16 : Half)
deriving DecidableEq, Repr

/-- The general registers an instruction reads (R23). -/
def Instr.sources : Instr → List Reg
  | .and _ rs rt => [rs, rt]
  | .addi _ rs _ => [rs]
  | .slt _ rs rt => [rs, rt]
  | .lui _ _ => []
  | .lw _ rs _ => [rs]
  | .sw rt rs _ => [rs, rt]
  | .beq rs rt _ => [rs, rt]

/-- The general register an instruction writes, if its form has a destination (R23). A
destination of 0 is a destination too; the write to it is discarded (R22). -/
def Instr.dest : Instr → Option Reg
  | .and rd _ _ => some rd
  | .addi rd _ _ => some rd
  | .slt rd _ _ => some rd
  | .lui rd _ => some rd
  | .lw rd _ _ => some rd
  | .sw _ _ _ => none
  | .beq _ _ _ => none

end Sys2Proof
end

