-- ==== Sys2Proof/WellFormed.lean ====
section
/-!
DEFINITION. Well-formedness of an instruction record (spec 30_encoding.md R80, R81). `Record` is the
record as its producer hands it over, an operation tag with plain numbers; `Record.wellFormed` is
the check of R81; `Instr` is the record whose operands carry their ranges in their types.
-/
namespace Sys2Proof

/-- An instruction record with its operands as plain numbers: register indices and the bit
pattern of the 16-bit field (R80). Nothing bounds them; `Record.wellFormed` does. -/
inductive Record where
  | and (rd rs rt : Nat)
  | addi (rd rs imm16 : Nat)
  | slt (rd rs rt : Nat)
  | lui (rd imm16 : Nat)
  | lw (rd rs imm16 : Nat)
  | sw (rt rs imm16 : Nat)
  | beq (rs rt imm16 : Nat)
deriving DecidableEq, Repr

/-- "every register operand is in 0 to 31" (R81). -/
def regInRange (r : Nat) : Bool := decide (r < 32)

/-- "`imm16` is in 0 to 65535 as a bit pattern" (R81). -/
def immInRange (v : Nat) : Bool := decide (v < 65536)

/-- The check of R81. -/
def Record.wellFormed : Record → Bool
  | .and rd rs rt => regInRange rd && regInRange rs && regInRange rt
  | .addi rd rs imm16 => regInRange rd && regInRange rs && immInRange imm16
  | .slt rd rs rt => regInRange rd && regInRange rs && regInRange rt
  | .lui rd imm16 => regInRange rd && immInRange imm16
  | .lw rd rs imm16 => regInRange rd && regInRange rs && immInRange imm16
  | .sw rt rs imm16 => regInRange rt && regInRange rs && immInRange imm16
  | .beq rs rt imm16 => regInRange rs && regInRange rt && immInRange imm16

/-- A register operand as an index, when it is in range. -/
def regOf (r : Nat) : Option Reg := if h : r < 32 then some ⟨r, h⟩ else none

/-- An immediate operand as a field, when it is in range. -/
def immOf (v : Nat) : Option Half := if v < 65536 then some (BitVec.ofNat 16 v) else none

/-- The instruction a record stands for, refused (`none`) when the record is not well formed. -/
def Record.toInstr : Record → Option Instr
  | .and rd rs rt => do return .and (← regOf rd) (← regOf rs) (← regOf rt)
  | .addi rd rs imm16 => do return .addi (← regOf rd) (← regOf rs) (← immOf imm16)
  | .slt rd rs rt => do return .slt (← regOf rd) (← regOf rs) (← regOf rt)
  | .lui rd imm16 => do return .lui (← regOf rd) (← immOf imm16)
  | .lw rd rs imm16 => do return .lw (← regOf rd) (← regOf rs) (← immOf imm16)
  | .sw rt rs imm16 => do return .sw (← regOf rt) (← regOf rs) (← immOf imm16)
  | .beq rs rt imm16 => do return .beq (← regOf rs) (← regOf rt) (← immOf imm16)

/-- The operands of an instruction as plain numbers. -/
def Instr.toRecord : Instr → Record
  | .and rd rs rt => .and rd.val rs.val rt.val
  | .addi rd rs imm16 => .addi rd.val rs.val imm16.toNat
  | .slt rd rs rt => .slt rd.val rs.val rt.val
  | .lui rd imm16 => .lui rd.val imm16.toNat
  | .lw rd rs imm16 => .lw rd.val rs.val imm16.toNat
  | .sw rt rs imm16 => .sw rt.val rs.val imm16.toNat
  | .beq rs rt imm16 => .beq rs.val rt.val imm16.toNat

/-- Well-formedness of an instruction: that of its record (R81). The types of `Instr` make it hold
of every instruction (`Laws.WellFormed`), as R81 says: "Every well-formed record is executable". -/
def Instr.wellFormed (i : Instr) : Bool := i.toRecord.wellFormed

end Sys2Proof
end

