-- ==== Sys2Proof/Decode.lean ====
section
/-!
DEFINITION. The instruction encoding and the total decoder of spec 30_encoding.md sections 2 to 4
(R82 to R98), and the encoder of R94. The bit layout is the spec's decision D1; must-be-zero fields
are part of the match (D2). The core has no byte order (20_memory.md R59), so both work on words.
-/
namespace Sys2Proof

/-- One row of the opcode map: `w` selects it when `w &&& mask = pattern` (section 3). -/
structure EncodingRow where
  mnemonic : String
  mask : Word
  pattern : Word
deriving DecidableEq, Repr

/-- R87 -/
def rowAnd : EncodingRow := ⟨"and", 0xFC0007FF#32, 0x00000024#32⟩
/-- R88 -/
def rowAddi : EncodingRow := ⟨"addi", 0xFC000000#32, 0x20000000#32⟩
/-- R89 -/
def rowSlt : EncodingRow := ⟨"slt", 0xFC0007FF#32, 0x0000002A#32⟩
/-- R90 -/
def rowLui : EncodingRow := ⟨"lui", 0xFFE00000#32, 0x3C000000#32⟩
/-- R91 -/
def rowLw : EncodingRow := ⟨"lw", 0xFC000000#32, 0x8C000000#32⟩
/-- R92 -/
def rowSw : EncodingRow := ⟨"sw", 0xFC000000#32, 0xAC000000#32⟩
/-- R93 -/
def rowBeq : EncodingRow := ⟨"beq", 0xFC000000#32, 0x10000000#32⟩

/-- The opcode map (R87 to R93), in the order of spec/opcode_table.json. -/
def opcodeMap : List EncodingRow :=
  [rowAnd, rowAddi, rowSlt, rowLui, rowLw, rowSw, rowBeq]

/-- Whether a word selects a row. -/
def EncodingRow.hits (row : EncodingRow) (w : Word) : Bool := w &&& row.mask == row.pattern

/-- The row that encodes an instruction. -/
def Instr.row : Instr → EncodingRow
  | .and _ _ _ => rowAnd
  | .addi _ _ _ => rowAddi
  | .slt _ _ _ => rowSlt
  | .lui _ _ => rowLui
  | .lw _ _ _ => rowLw
  | .sw _ _ _ => rowSw
  | .beq _ _ _ => rowBeq

/-- `A = w[25:21]` (R86). -/
def fieldA (w : Word) : Reg := (w.extractLsb' 21 5).toFin
/-- `B = w[20:16]` (R86). -/
def fieldB (w : Word) : Reg := (w.extractLsb' 16 5).toFin
/-- `C = w[15:11]` (R86). -/
def fieldC (w : Word) : Reg := (w.extractLsb' 11 5).toFin
/-- `imm16 = w[15:0]` (R86). -/
def fieldImm (w : Word) : Half := w.extractLsb' 0 16

/-- What the decoder answers: an instruction, or `Illegal` (R94). -/
inductive Decoded where
  | instr (i : Instr)
  /-- a word that is none of the seven instructions (R95) -/
  | illegal
deriving DecidableEq, Repr

/-- The decoder (R94): a total function that tests the seven (mask, match) pairs; the roles are
taken from the fields as R86 maps them. -/
def decode (w : Word) : Decoded :=
  if rowAnd.hits w then .instr (.and (fieldC w) (fieldA w) (fieldB w))
  else if rowAddi.hits w then .instr (.addi (fieldB w) (fieldA w) (fieldImm w))
  else if rowSlt.hits w then .instr (.slt (fieldC w) (fieldA w) (fieldB w))
  else if rowLui.hits w then .instr (.lui (fieldB w) (fieldImm w))
  else if rowLw.hits w then .instr (.lw (fieldB w) (fieldA w) (fieldImm w))
  else if rowSw.hits w then .instr (.sw (fieldB w) (fieldA w) (fieldImm w))
  else if rowBeq.hits w then .instr (.beq (fieldA w) (fieldB w) (fieldImm w))
  else .illegal

/-- A register index as its 5-bit field. -/
def regBits (r : Reg) : BitVec 5 := BitVec.ofFin r

/-- Format R (R84): opcode 000000, `A`, `B`, `C`, shamt 00000, funct. -/
def formatR (a b c : Reg) (funct : BitVec 6) : Word :=
  0#6 ++ regBits a ++ regBits b ++ regBits c ++ 0#5 ++ funct

/-- Format I (R85): opcode, `A`, `B`, imm16. -/
def formatI (opcode : BitVec 6) (a b : Reg) (imm16 : Half) : Word :=
  opcode ++ regBits a ++ regBits b ++ imm16

/-- The encoder (R94), the opcode and function numbers from R87 to R93, each role in the field R86
gives it, zero in `A` of `lui`. -/
def encode : Instr → Word
  | .and rd rs rt => formatR rs rt rd 0x24#6
  | .addi rd rs imm16 => formatI 0x08#6 rs rd imm16
  | .slt rd rs rt => formatR rs rt rd 0x2A#6
  | .lui rd imm16 => formatI 0x0F#6 0 rd imm16
  | .lw rd rs imm16 => formatI 0x23#6 rs rd imm16
  | .sw rt rs imm16 => formatI 0x2B#6 rs rt imm16
  | .beq rs rt imm16 => formatI 0x04#6 rs rt imm16

/-- The instruction word of a table row's bits: every instruction is one 32-bit word (R82), bits
above `nbits` zero. -/
def tableWord (nbits w : Nat) : Word := BitVec.ofNat 32 (w % 2 ^ nbits)

/-- The instruction the decoder reads from an instruction whose bits are `w`, bit 0 the least
significant bit of the word, `none` where the word is illegal. -/
def decodeTableWord (nbits w : Nat) : Option Instr :=
  match decode (tableWord nbits w) with
  | .instr i => some i
  | .illegal => none

end Sys2Proof
end

