-- ==== Sys2Proof/Config.lean ====
section
/-!
DEFINITION. The implementation parameters of spec 00_scope.md R6 that the spec leaves OPEN: the
arguments of the spec's step function (10_state.md R32, 70_reset_and_hazards.md R233). The other
two, IMEM_BASE and DMEM_BASE, are fixed at 0 and appear nowhere. There is no free value: "Nothing
in this hardware is any value in the sense of a draw made during a run"
(93_implementation_defined.md part 1).
-/
namespace Sys2Proof

/-- The open parameters (R6). -/
structure Params where
  /-- `PROGRAM`, the instruction words; slot `k` stands at byte address `4*k` (R57, D7). Its
  length is `IMEM_WORDS`. -/
  program : List Word
  /-- `DMEM_WORDS`, the number of data cells (R31, D8). -/
  dmemWords : Nat
  /-- `ENTRY`, the pc after reset (R30, D7). -/
  entry : Word
  /-- `REG_RESET`, the words of registers 1 to 31 after reset; register `i` is at index `i - 1`
  (R25, D10). -/
  regReset : Vector Word 31
deriving DecidableEq, Repr

/-- The ranges R6 gives the parameters. -/
abbrev Params.Admissible (p : Params) : Prop :=
  p.program.length ≤ 2 ^ 30 ∧ 1 ≤ p.dmemWords ∧ p.dmemWords ≤ 2 ^ 30 ∧ p.entry.toNat % 4 = 0

/-- The parameters of `State.reset`. `ENTRY` = 0 and `REG_RESET` all zero are R6's defaults; the
host has supplied no program yet (R233). DESIGN CHOICE (unsafe, log 2): `DMEM_WORDS` = 8, the size
95_test_vectors.md uses "unless said otherwise". DESIGN CHOICE (unsafe, log 3): the 31 register
values. -/
def Params.standard : Params where
  program := []
  dmemWords := 8
  entry := 0
  regReset := Vector.replicate 31 0

end Sys2Proof
end

