-- ==== Sys2Proof/Machine/State.lean ====
section
/-!
DEFINITION. The architectural state (spec 10_state.md R37), the faults of a step
(60_exceptions.md R190) and the state after reset (70_reset_and_hazards.md R231).
-/
namespace Sys2Proof.Machine

/-- The data memory as a list of (cell index, word), cell `j` standing at byte address `4*j` (R31).
Cells are words, not bytes: "A model stores words, not bytes, and must not commit to an order"
(20_memory.md R59; log 4). One canonical form, `Memory.wf` in Ops: indices strictly rising, no
entry holding what an unlisted cell reads as. -/
abbrev Memory := List (Nat × Word)

/-- The triple `(x, pc, dmem)` of R37, "and nothing else", with the parameters of the run beside it
(DESIGN CHOICE, safe, log 1: the host's step takes a state only, and no step changes them). -/
structure State where
  /-- Registers 1 to 31; register `i` is at index `i - 1`. Register 0 is not stored (R37). -/
  x : Vector Word 31
  /-- The program counter, a 32-bit byte address (R26). -/
  pc : Word
  /-- The data memory (R31). -/
  dmem : Memory
  /-- `PROGRAM`, `DMEM_WORDS`, `ENTRY`, `REG_RESET` (00_scope.md R6): not architectural state. -/
  params : Params
deriving DecidableEq, Repr

/-- The three ways a step can fail (60_exceptions.md R190), with the value each reports. All are
the spec's own: the hardware stops there too, with the state left unmodified (R193). -/
inductive Fault where
  /-- Raised by the fetch of any step when no instruction stands at the pc (R191). Safe: it is what
  the spec says the machine does. -/
  | programCounterOutOfRange (addr : Word)
  /-- Raised by the decode of any step whose word is none of the seven instructions (R194).
  Safe: "errs toward a model that stops where some implementation might continue" (D3). -/
  | illegalInstruction (addr word : Word)
  /-- Raised by `lw` and `sw` on a misaligned or out-of-bounds effective address (R192). Safe: it is
  what the spec says the machine does. -/
  | memoryAccess (addr : Word)
deriving DecidableEq, Repr

/-- Reasons for which the model gives a step no meaning. -/
inductive Refusal where
  /-- Raised by `exec` for an instruction not yet modelled. No arm raises it: all seven
  instructions have their meaning (R121: "There is no third outcome"). Safe. -/
  | notModelled (mnemonic : String)
deriving DecidableEq, Repr

/-- The state after reset with the parameters `p` (R231): the registers at `REG_RESET`, the pc at
`ENTRY`, every data cell 0 (nothing listed). -/
def State.resetWith (p : Params) : State where
  x := p.regReset
  pc := p.entry
  dmem := []
  params := p

/-- The machine right after reset, with the parameters of `Params.standard`. -/
def State.reset : State := State.resetWith Params.standard

end Sys2Proof.Machine
end

