-- ==== Sys2Proof/Machine/Ops.lean ====
section
/-!
DEFINITION. The named operations over registers, pc, data memory and instruction memory, the
primitives of spec 00_scope.md R10. Every read and write of the state goes through them.
-/
namespace Sys2Proof.Machine

/-! ### Registers and pc -/

/-- `x[i]` (10_state.md R20, R21): register 0 reads 0 in every state. -/
def State.readReg (s : State) (i : Reg) : Word :=
  if h : i.val = 0 then 0 else s.x[i.val - 1]'(by omega)

/-- `x[i] <- v` (R22): "any write targeting index 0 is silently discarded". -/
def State.writeReg (s : State) (i : Reg) (v : Word) : State :=
  if h : i.val = 0 then s else { s with x := s.x.set (i.val - 1) v (by omega) }

/-- `pc <- t` (R28). -/
def State.setPc (s : State) (t : Word) : State := { s with pc := t }

/-- The address of the instruction after the one at the pc: `pc + 4`, modulo 2^32 (R28, R29). -/
def State.nextPc (s : State) : Word := s.pc + 4

/-- The sequential advance of the pc by one slot (40_execution_loop.md R127). -/
def State.advance (s : State) : State := s.setPc s.nextPc

/-- Writeback of one register and advance: the end of `and`, `addi`, `slt`, `lui`, `lw`
(40_execution_loop.md R126, R127; 41_alu.md R140). -/
def State.retire (s : State) (rd : Reg) (v : Word) : State := (s.writeReg rd v).advance

/-! ### Faults -/

/-- `raise E(info)` (60_exceptions.md R193): the step ends at once with the fault as its outcome.
There is no trap entry: nothing is saved, no mode changes, control goes nowhere, and the outcome goes
to the host (R196, R201). The state of the machine stays the one the step began in. -/
def raise (f : Fault) : Host.Outcome State Fault Refusal := .fault f

/-! ### Addresses -/

/-- `a[1:0] = 0`: aligned to 4 bytes (20_memory.md R52, R58). -/
def aligned (a : Word) : Bool := a.extractLsb' 0 2 == 0#2

/-- `u(a) / 4`: the data cell, or the instruction slot, at a byte address (R51, R57). -/
def wordIndex (a : Word) : Nat := a.toNat / 4

/-! ### Data memory -/

/-- What an unlisted cell reads as: 0, the reset content of every cell (10_state.md R31). -/
def Memory.unlisted : Word := 0

/-- The canonical form: indices strictly rising, no entry holding `Memory.unlisted`. -/
abbrev Memory.wf (m : Memory) : Prop :=
  m.Pairwise (fun e e' => e.1 < e'.1) ∧ ∀ e ∈ m, e.2 ≠ Memory.unlisted

/-- `dmem[j]` (R31). -/
def Memory.cell : Memory → Nat → Word
  | [], _ => Memory.unlisted
  | e :: rest, j => if e.1 = j then e.2 else Memory.cell rest j

/-- The list `m` with an entry for cell `j` before it, or without one when `v` is what an unlisted
cell reads as. -/
def Memory.enter (j : Nat) (v : Word) (m : Memory) : Memory :=
  if v = Memory.unlisted then m else (j, v) :: m

/-- `dmem[j] <- v`: the cell is replaced, every other cell unchanged, the canonical form kept. -/
def Memory.store : Memory → Nat → Word → Memory
  | [], j, v => Memory.enter j v []
  | e :: rest, j, v =>
    if j < e.1 then Memory.enter j v (e :: rest)
    else if j = e.1 then Memory.enter j v rest
    else e :: Memory.store rest j v

/-- `dmem[j]` of a state. -/
def State.cell (s : State) (j : Nat) : Word := Memory.cell s.dmem j

/-- The state with `dmem[j]` replaced by `v`. -/
def State.storeCell (s : State) (j : Nat) (v : Word) : State :=
  { s with dmem := Memory.store s.dmem j v }

/-- `DataAddrOK(a)` (20_memory.md R52): aligned and inside the data memory. -/
def State.dataAddrOK (s : State) (a : Word) : Bool :=
  aligned a && decide (wordIndex a < s.params.dmemWords)

/-- `MemRead(a, 4)` (R54). -/
def State.memRead (s : State) (a : Word) : Except Fault Word :=
  if s.dataAddrOK a then .ok (s.cell (wordIndex a)) else .error (.memoryAccess a)

/-- `MemWrite(a, 4, v)` (R55): the check comes before the write. -/
def State.memWrite (s : State) (a v : Word) : Except Fault State :=
  if s.dataAddrOK a then .ok (s.storeCell (wordIndex a) v) else .error (.memoryAccess a)

/-! ### Instruction memory: fetch and decode -/

/-- `Fetch(a)` (20_memory.md R58). Reads the instruction memory only. -/
def State.fetch (s : State) (a : Word) : Except Fault Word :=
  if aligned a then
    match s.params.program[wordIndex a]? with
    | some w => .ok w
    | none => .error (.programCounterOutOfRange a)
  else .error (.programCounterOutOfRange a)

/-- The fetch and decode phases of a step (40_execution_loop.md R122, R123, R124): the instruction
at the pc, or the first fault in phase order (60_exceptions.md R199). -/
def State.fetchDecode (s : State) : Except Fault Instr :=
  match s.fetch s.pc with
  | .error f => .error f
  | .ok w =>
    match decode w with
    | .illegal => .error (.illegalInstruction s.pc w)
    | .instr i => .ok i

/-! ### Loading a program (the host, between resets) -/

/-- `program` with slot `k` holding `w`; slots that did not exist before `k` hold the zero word,
which is illegal (30_encoding.md R97). -/
def placeSlot : List Word → Nat → Word → List Word
  | [], 0, w => [w]
  | _ :: rest, 0, w => w :: rest
  | [], k + 1, w => 0 :: placeSlot [] k w
  | u :: rest, k + 1, w => u :: placeSlot rest k w

/-- The word-aligned address at or below `a`: `a` itself when it is aligned. -/
def alignDown (a : Word) : Word := BitVec.ofNat 32 (4 * wordIndex a)

/-- The host's load of one instruction word into the slot at the pc (70_reset_and_hazards.md R233).
A pc that is not word-aligned is rounded down, since no instruction can stand there (R27). -/
def State.loadAtPc (s : State) (w : Word) : State :=
  { s with
    pc := alignDown s.pc
    params := { s.params with program := placeSlot s.params.program (wordIndex s.pc) w } }

end Sys2Proof.Machine
end

