-- ==== Sys2Proof/Machine/Operands.lean ====
section
/-!
DEFINITION. The operand forms: extension of immediates (spec 00_scope.md R9), the immediates of
30_encoding.md R99 to R101, the one addressing mode (42_load_store.md R160) and the branch target
(43_branch.md R181).
-/
namespace Sys2Proof.Machine

/-- `sext_32(v)`: `v[15]` repeated 16 times, then `v` (R9). -/
def sext32 (v : Half) : Word := v.signExtend 32

/-- `zext_32(v)`: sixteen zero bits, then `v` (R9). -/
def zext32 (v : Half) : Word := v.zeroExtend 32

/-- The operand of `addi`, and the byte offset of `lw` and `sw`: not scaled or shifted (R99). -/
def immOperand (imm16 : Half) : Word := sext32 imm16

/-- The operand of `lui`: `zext_32(imm16) << 16` (R101). -/
def luiOperand (imm16 : Half) : Word := zext32 imm16 <<< 16

/-- The operand of `beq`: `sext_32(imm16)` multiplied by 4, modulo 2^32 (R100). -/
def branchOperand (imm16 : Half) : Word := 4 * sext32 imm16

/-- The effective address `x[rs] + sext_32(imm16)`, modulo 2^32 (R160, 20_memory.md R53). The wrap
of the sum is the spec's decision D9 (log 9). -/
def State.effAddr (s : State) (rs : Reg) (imm16 : Half) : Word := s.readReg rs + immOperand imm16

/-- The target of a branch at the pc: `pc + 4 + 4 * sext_32(imm16)`, modulo 2^32 (R181, C1). -/
def State.branchTarget (s : State) (imm16 : Half) : Word := s.nextPc + branchOperand imm16

end Sys2Proof.Machine
end

