-- ==== Sys2Proof/Machine/Flags.lean ====
section
/-!
DEFINITION. The comparisons. The machine has no flags and no condition codes (spec 10_state.md R33):
"comparison results are written to a general register (`slt`) or consumed at once by the branch
(`beq`)". This file holds those two comparisons and nothing else.
-/
namespace Sys2Proof.Machine

/-- `a <s b`: the two's-complement readings, compared exactly (00_scope.md R8, 41_alu.md R143). -/
def signedLess (a b : Word) : Bool := decide (a.toInt < b.toInt)

/-- The word `slt` writes: the whole 32-bit 1 or 0 (R143). -/
def sltResult (a b : Word) : Word := if signedLess a b then 1 else 0

/-- The condition of `beq`: all 32 bits equal (43_branch.md R180). -/
def branchTaken (a b : Word) : Bool := a == b

end Sys2Proof.Machine
end

