-- ==== Sys2Proof/Machine/Alu.lean ====
section
/-!
DEFINITION. The ALU and immediate instructions `and`, `addi`, `slt`, `lui` (spec 41_alu.md R140 to
R144). Each writes one register from values of the state before the step, advances the pc and cannot
fault.
-/
namespace Sys2Proof.Machine

/-- `x[rd] <- x[rs] & x[rt]` (R141). -/
def execAnd (rd rs rt : Reg) (s : State) : Host.Outcome State Fault Refusal :=
  .next (s.retire rd (s.readReg rs &&& s.readReg rt))

/-- `x[rd] <- x[rs] + sext_32(imm16)`, modulo 2^32, no overflow trap (R142). -/
def execAddi (rd rs : Reg) (imm16 : Half) (s : State) : Host.Outcome State Fault Refusal :=
  .next (s.retire rd (s.readReg rs + immOperand imm16))

/-- `x[rd] <- if s(x[rs]) < s(x[rt]) then 1 else 0` (R143). -/
def execSlt (rd rs rt : Reg) (s : State) : Host.Outcome State Fault Refusal :=
  .next (s.retire rd (sltResult (s.readReg rs) (s.readReg rt)))

/-- `x[rd] <- imm16 ++ 0x0000` (R144). -/
def execLui (rd : Reg) (imm16 : Half) (s : State) : Host.Outcome State Fault Refusal :=
  .next (s.retire rd (luiOperand imm16))

end Sys2Proof.Machine
end

