-- ==== Sys2Proof/Machine/Branch.lean ====
section
/-!
DEFINITION. The control transfer `beq` (spec 43_branch.md R180 to R183): resolved within its own
step, no delay slot, no special case for a branch to itself.
-/
namespace Sys2Proof.Machine

/-- `pc <- target` when `x[rs] == x[rt]`, else `pc <- pc + 4` (R180). -/
def execBeq (rs rt : Reg) (imm16 : Half) (s : State) : Host.Outcome State Fault Refusal :=
  if branchTaken (s.readReg rs) (s.readReg rt) then .next (s.setPc (s.branchTarget imm16))
  else .next s.advance

end Sys2Proof.Machine
end

