-- ==== Sys2Proof/Machine/LoadStore.lean ====
section
/-!
DEFINITION. The load and store instructions `lw` and `sw` (spec 42_load_store.md R160 to R162). The
address is checked before anything is written; a bad one faults with the effective address.
-/
namespace Sys2Proof.Machine

/-- `x[rd] <- MemRead(ea, 4)` (R161). The address is checked whatever the destination (D14). -/
def execLw (rd rs : Reg) (imm16 : Half) (s : State) : Host.Outcome State Fault Refusal :=
  match s.memRead (s.effAddr rs imm16) with
  | .ok v => .next (s.retire rd v)
  | .error f => raise f

/-- `MemWrite(ea, 4, x[rt])` (R162). -/
def execSw (rt rs : Reg) (imm16 : Half) (s : State) : Host.Outcome State Fault Refusal :=
  match s.memWrite (s.effAddr rs imm16) (s.readReg rt) with
  | .ok t => .next t.advance
  | .error f => raise f

end Sys2Proof.Machine
end

