-- ==== Sys2Proof/Machine/Dispatch.lean ====
section
/-!
DEFINITION. The dispatch on the operation tag (spec 40_execution_loop.md R122 phase 3, R125).
-/
namespace Sys2Proof.Machine

/-- One arm per instruction, each a direct call of its meaning. -/
def exec (i : Instr) (s : State) : Host.Outcome State Fault Refusal :=
  match i with
  | .and rd rs rt => Sys2Proof.Machine.execAnd rd rs rt s
  | .addi rd rs imm16 => Sys2Proof.Machine.execAddi rd rs imm16 s
  | .slt rd rs rt => Sys2Proof.Machine.execSlt rd rs rt s
  | .lui rd imm16 => Sys2Proof.Machine.execLui rd imm16 s
  | .lw rd rs imm16 => Sys2Proof.Machine.execLw rd rs imm16 s
  | .sw rt rs imm16 => Sys2Proof.Machine.execSw rt rs imm16 s
  | .beq rs rt imm16 => Sys2Proof.Machine.execBeq rs rt imm16 s

end Sys2Proof.Machine
end

