-- ==== Sys2Proof/Machine/Step.lean ====
section
/-!
DEFINITION. The step (spec 40_execution_loop.md R120 to R122): fetch, decode, execute with writeback
and advance.
-/
namespace Sys2Proof.Machine

/-- `step(S)` (R122): the instruction at the pc is executed; a fault of fetch or decode ends the
step. -/
def step (s : State) : Host.Outcome State Fault Refusal :=
  match s.fetchDecode with
  | .error f => raise f
  | .ok i => exec i s

/-- `s` with the instruction whose bits are `w` in the slot `step` fetches next: the host's load of
a program (70_reset_and_hazards.md R233; log 5). -/
def State.withFetchWord (s : State) (nbits w : Nat) : State := s.loadAtPc (tableWord nbits w)

end Sys2Proof.Machine
end

