-- ==== Sys2Proof/Machine/HostView.lean ====
section
/-!
DEFINITION. What the host does to the core and sees of it, between steps (spec 10_state.md R39, R40;
40_execution_loop.md R130; 60_exceptions.md R196; 70_reset_and_hazards.md R230). The host has no other
move (D24).
-/
namespace Sys2Proof.Machine

/-- Reset (R230): the whole architectural state goes to its reset value, in one action, whatever it
was; the parameters stay. -/
def State.hostReset (s : State) : State := State.resetWith s.params

/-- How a run ends: with its budget used up, or at the first step that did not answer a state, with
the state as it stood before that step (R130). -/
inductive RunResult where
  | done (s : State)
  | faulted (f : Fault) (s : State)
  /-- never answered: no step refuses (R121) -/
  | refused (r : Refusal) (s : State)
deriving DecidableEq, Repr

/-- `run(S, max_cycles)` (R130): repeated stepping under the caller's budget; no halted state, no
halt detection, no early exit but a fault. -/
def run : Nat → State → RunResult
  | 0, s => .done s
  | n + 1, s =>
    match step s with
    | .next t => run n t
    | .fault f => .faulted f s
    | .refused r => .refused r s

/-- `snapshot_registers()` (R40): the 32 registers, element `i` being `x[i]`. -/
def State.snapshotRegisters (s : State) : Vector Word 32 := Vector.ofFn s.readReg

/-- `snapshot_memory()` (R40): the `DMEM_WORDS` cells, element `j` being `dmem[j]`. -/
def State.snapshotMemory (s : State) : List Word := (List.range s.params.dmemWords).map s.cell

/-- The kind of a fault, a name without a number (R190). -/
inductive FaultKind where
  | programCounterOutOfRangeError
  | illegalInstruction
  | memoryAccessError
deriving DecidableEq, Repr

/-- The report to the host (R196): kind, faulting address, and the word of an illegal instruction. -/
structure FaultReport where
  kind : FaultKind
  addr : Word
  word : Option Word
deriving DecidableEq, Repr

/-- The report of a fault (R196). -/
def Fault.report : Fault → FaultReport
  | .programCounterOutOfRange addr => ⟨.programCounterOutOfRangeError, addr, none⟩
  | .illegalInstruction addr word => ⟨.illegalInstruction, addr, some word⟩
  | .memoryAccess addr => ⟨.memoryAccessError, addr, none⟩

end Sys2Proof.Machine
end

