-- ==== Sys2Proof/Machine/Toolchain.lean ====
section
/-!
DEFINITION. What the assembler fixes about the operands of an instruction (spec 30_encoding.md R105
to R107), and a program given as records (R80, R94). The assembler is outside the hardware
(00_scope.md R4): its text layer is not modelled, and no step uses this file.
-/
namespace Sys2Proof.Machine

/-- The aliases of R105, "No other alias is defined" (D5). -/
def regAliases : List (String × Reg) :=
  [("$zero", 0), ("$v0", 2), ("$t0", 8), ("$t1", 9), ("$t2", 10), ("$t3", 11), ("$t4", 12),
   ("$t5", 13), ("$t6", 14), ("$t7", 15)]

/-- The numeric names `$0` to `$31` of R105. -/
def regNumbers : List (String × Reg) := (List.finRange 32).map fun i => ("$" ++ toString i.val, i)

/-- The index a register name stands for; `none` is the assembler's `UnknownRegisterError` (R105). -/
def regOfName (name : String) : Option Reg := (regAliases ++ regNumbers).lookup name

/-- The field of an `addi`, `lw` or `sw` literal, "16 bits signed"; `none` is
`ImmediateRangeError` (R106). -/
def signedField (v : Int) : Option Half :=
  if -32768 ≤ v ∧ v ≤ 32767 then some (BitVec.ofInt 16 v) else none

/-- The field of a `lui` literal, 0 to 65535; `none` is `ImmediateRangeError` (R106, D20, C4). -/
def upperField (v : Int) : Option Half :=
  if 0 ≤ v ∧ v ≤ 65535 then some (BitVec.ofInt 16 v) else none

/-- The field of a `beq` in slot `b` to a label at slot `l`: the offset `l - (b + 1)`, relative to
the instruction after the branch; `none` is `ImmediateRangeError` (R107, D21). -/
def branchField (b l : Nat) : Option Half := signedField ((l : Int) - ((b : Int) + 1))

/-- `PROGRAM` given as records, in the form of words (R80, R94, D23): record `k` in slot `k`. -/
def programOfRecords (l : List Instr) : List Word := l.map encode

end Sys2Proof.Machine
end

