-- ==== Sys2Proof/Safety.lean ====
section
/-!
DEFINITION. The terms in which claims speak of the machine: the invariant of its states, the reach of
a run, the normal end of a run, and what a register result, a store and a branch leave (their
frames).
-/
namespace Sys2Proof.Machine

/-- What every state reachable from reset meets: parameters in the ranges of 00_scope.md R6, a
word-aligned pc (10_state.md R27), and a data memory in its canonical form whose listed cells all
exist (R31). -/
abbrev State.Inv (s : State) : Prop :=
  s.params.Admissible ∧ s.pc.toNat % 4 = 0 ∧ Memory.wf s.dmem ∧
    ∀ e ∈ s.dmem, e.1 < s.params.dmemWords

/-- `s` is a state some run from the reset state with the parameters `p` comes to without fault. -/
def Reachable (p : Params) (s : State) : Prop := ∃ n, run n (State.resetWith p) = .done s

/-- A fixed point of `step` (40_execution_loop.md R131). -/
def FixedPoint (s : State) : Prop := step s = .next s

/-- The host's convention for the normal end of a run (60_exceptions.md R210): the run from reset
comes, without any fault, to a fixed point of `step`. It says nothing about the hardware. -/
def EndsNormally (p : Params) (s : State) : Prop := Reachable p s ∧ FixedPoint s

/-- A step that answers a next state, safe in the sense of 60_exceptions.md R195. -/
def StepsSafely (s : State) : Prop := ∃ t, step s = .next t

/-- `t` is `s` with the word `v` in register `rd` and the pc advanced by one slot; every other
register, every cell and the parameters as before. A destination of 0 leaves every register as it
was (10_state.md R22; 41_alu.md R140). -/
structure WritesRegister (s t : State) (rd : Reg) (v : Word) : Prop where
  dest : t.readReg rd = if rd = 0 then 0 else v
  others : ∀ r, r ≠ rd → t.readReg r = s.readReg r
  cells : ∀ j, t.cell j = s.cell j
  pc : t.pc = s.pc + 4
  params : t.params = s.params

/-- `t` is `s` with the word `v` in the data cell at byte address `a` and the pc advanced by one
slot; every other cell, every register and the parameters as before (42_load_store.md R162). -/
structure WritesCell (s t : State) (a v : Word) : Prop where
  cell : t.cell (wordIndex a) = v
  others : ∀ j, j ≠ wordIndex a → t.cell j = s.cell j
  regs : ∀ r, t.readReg r = s.readReg r
  pc : t.pc = s.pc + 4
  params : t.params = s.params

/-- `t` is `s` with the pc at `target`; every register, every cell and the parameters as before
(43_branch.md R180). -/
structure MovesPc (s t : State) (target : Word) : Prop where
  pc : t.pc = target
  regs : ∀ r, t.readReg r = s.readReg r
  cells : ∀ j, t.cell j = s.cell j
  params : t.params = s.params

end Sys2Proof.Machine
end

