-- ==== Sys2Proof/Certificates/Slice0/Obligations.lean ====
section
/-!
DEFINITION. The statements about the machine, for the provers. Each docstring names the rule of spec/
it formalises. `Sys2Proof.Machine.exec`, `step` and `run` are the model's; the frames
`WritesRegister`, `WritesCell` and `MovesPc` are in Safety.
-/
open Sys2Proof Sys2Proof.Machine

/-! ### Registers -/

/-- R21: register 0 reads 0 in every state, also in the state after any instruction or step. -/
def Obligations.ZeroRegisterReadsZero : Prop :=
  ∀ s : State, s.readReg 0 = 0 ∧
    (∀ i t, exec i s = .next t → t.readReg 0 = 0) ∧ (∀ t, step s = .next t → t.readReg 0 = 0)

/-- 10_state.md R22, with decision D9 (log 9) for the load: a write to register 1 to 31 replaces its
content and nothing else; a write to register 0 does nothing, and an instruction whose destination is
register 0 completes with the pc advanced and no other effect (a load when its address, the wrapped
sum of D9, is good). -/
def Obligations.RegisterWriteReplacesOrIsDiscarded : Prop :=
  ∀ (s : State) (v : Word),
    (∀ i : Reg, i ≠ 0 → (s.writeReg i v).readReg i = v ∧
      (∀ r, r ≠ i → (s.writeReg i v).readReg r = s.readReg r) ∧
      (∀ j, (s.writeReg i v).cell j = s.cell j) ∧
      (s.writeReg i v).pc = s.pc ∧ (s.writeReg i v).params = s.params) ∧
    s.writeReg 0 v = s ∧
    (∀ i : Instr, i.dest = some 0 →
      (∀ rs imm16, i = .lw 0 rs imm16 → s.dataAddrOK (s.effAddr rs imm16) = true) →
      exec i s = .next (s.setPc (s.pc + 4)))

/-- R23: the table of registers read and written, which `Instr.sources` and `Instr.dest` hold, and
that no instruction reads or writes any other. Two states that agree on the pc, the data memory, the
parameters and the source registers give the same result, cells and pc, or the same fault; every
register that is not the destination stays as it was. -/
def Obligations.InstructionsReadAndWriteOnlyTheirRegisters : Prop :=
  (∀ (a b c : Reg) (v : Half),
    (Instr.and a b c).sources = [b, c] ∧ (Instr.and a b c).dest = some a ∧
    (Instr.addi a b v).sources = [b] ∧ (Instr.addi a b v).dest = some a ∧
    (Instr.slt a b c).sources = [b, c] ∧ (Instr.slt a b c).dest = some a ∧
    (Instr.lui a v).sources = [] ∧ (Instr.lui a v).dest = some a ∧
    (Instr.lw a b v).sources = [b] ∧ (Instr.lw a b v).dest = some a ∧
    (Instr.sw a b v).sources = [b, a] ∧ (Instr.sw a b v).dest = none ∧
    (Instr.beq a b v).sources = [a, b] ∧ (Instr.beq a b v).dest = none) ∧
  ∀ (i : Instr) (s s' : State), s.pc = s'.pc → s.dmem = s'.dmem → s.params = s'.params →
    (∀ r ∈ i.sources, s.readReg r = s'.readReg r) →
    (∃ t t', exec i s = .next t ∧ exec i s' = .next t' ∧ t.pc = t'.pc ∧
      (∀ j, t.cell j = t'.cell j) ∧ (∀ rd, i.dest = some rd → t.readReg rd = t'.readReg rd) ∧
      (∀ r, i.dest ≠ some r → t.readReg r = s.readReg r ∧ t'.readReg r = s'.readReg r)) ∨
    (∃ f, exec i s = .fault f ∧ exec i s' = .fault f)

/-! ### Operand forms -/

/-- R9 and R99: sign extension repeats bit 15 above the field and keeps the signed reading, which is
in -32768 to 32767; zero extension puts zero bits above it; the operand of `addi`, `lw` and `sw` is
the sign-extended field, not scaled. -/
def Obligations.ImmediatesExtendAsStated : Prop :=
  ∀ v : Half,
    (∀ k, (sext32 v).getLsbD k = if k < 16 then v.getLsbD k else decide (k < 32) && v.getLsbD 15) ∧
    (∀ k, (zext32 v).getLsbD k = if k < 16 then v.getLsbD k else false) ∧
    immOperand v = sext32 v ∧
    (sext32 v).toInt = v.toInt ∧ -32768 ≤ (sext32 v).toInt ∧ (sext32 v).toInt ≤ 32767

/-- R100: the operand of `beq` is the sign-extended field times 4 modulo 2^32, a left shift by 2,
added to the address of the instruction after the branch; its reach in bytes. -/
def Obligations.BranchOperandCountsInstructions : Prop :=
  ∀ (v : Half) (s : State),
    (branchOperand v).toNat = 4 * (sext32 v).toNat % 2 ^ 32 ∧ branchOperand v = sext32 v <<< 2 ∧
    s.branchTarget v = s.pc + 4 + branchOperand v ∧
    (branchOperand v).toInt = 4 * v.toInt ∧
    -131072 ≤ (branchOperand v).toInt ∧ (branchOperand v).toInt ≤ 131068

/-! ### Memory -/

/-- R52: the address check. Both halves raise the same error with the address; a negative address
is a large unsigned one. -/
def Obligations.DataAddressCheck : Prop :=
  ∀ (s : State) (a : Word),
    (s.dataAddrOK a = true ↔ a.extractLsb' 0 2 = 0#2 ∧ a.toNat / 4 < s.params.dmemWords) ∧
    (¬(a.extractLsb' 0 2 = 0#2 ∧ a.toNat / 4 < s.params.dmemWords) →
      s.memRead a = .error (.memoryAccess a) ∧
      ∀ v, s.memWrite a v = .error (.memoryAccess a)) ∧
    (a.toInt < 0 → s.params.dmemWords ≤ 2 ^ 29 → s.dataAddrOK a = false)

/-- R54: `MemRead` answers the addressed cell, or raises the memory fault with the address. -/
def Obligations.MemReadAnswersTheCell : Prop :=
  ∀ (s : State) (a : Word),
    (s.dataAddrOK a = true → s.memRead a = .ok (s.cell (a.toNat / 4))) ∧
    (s.dataAddrOK a = false → s.memRead a = .error (.memoryAccess a))

/-- R55: `MemWrite` replaces the addressed cell and leaves every other cell, register and the pc as
they were, or raises the memory fault with the address. -/
def Obligations.MemWriteReplacesOneCell : Prop :=
  ∀ (s : State) (a v : Word), Memory.wf s.dmem →
    (s.dataAddrOK a = true → ∃ t, s.memWrite a v = .ok t ∧ t.cell (a.toNat / 4) = v ∧
      (∀ j, j ≠ a.toNat / 4 → t.cell j = s.cell j) ∧ (∀ r, t.readReg r = s.readReg r) ∧
      t.pc = s.pc ∧ t.params = s.params) ∧
    (s.dataAddrOK a = false → s.memWrite a v = .error (.memoryAccess a))

/-- R58: a fetch answers the word of the slot at the address, or raises the program-counter fault
with it; an empty program faults at the first step. -/
def Obligations.FetchAnswersTheSlot : Prop :=
  ∀ (s : State) (a : Word),
    (∀ h : a.toNat / 4 < s.params.program.length, a.extractLsb' 0 2 = 0#2 →
      s.fetch a = .ok s.params.program[a.toNat / 4]) ∧
    (¬(a.extractLsb' 0 2 = 0#2 ∧ a.toNat / 4 < s.params.program.length) →
      s.fetch a = .error (.programCounterOutOfRange a)) ∧
    (s.params.program = [] → step s = .fault (.programCounterOutOfRange s.pc))

/-- R65: no step changes what any later fetch answers. -/
def Obligations.StoresNeverReachInstructionMemory : Prop :=
  ∀ s t : State, step s = .next t → ∀ a, t.fetch a = s.fetch a

/-- 20_memory.md R50 with 10_state.md R31: a cell that a step changes was the target of the `sw`
that the step executed, and holds the stored register. The target is the wrapped sum, decision D9
(log 9). -/
def Obligations.OnlyStoresChangeCells : Prop :=
  ∀ s t : State, Memory.wf s.dmem → step s = .next t → ∀ j, t.cell j ≠ s.cell j →
    ∃ rt rs imm16, s.fetchDecode = .ok (.sw rt rs imm16) ∧
      (s.readReg rs + sext32 imm16).toNat = 4 * j ∧ t.cell j = s.readReg rt

/-- 20_memory.md R62: after a store, and any number of steps that do not store to that cell, a load
of the cell gives the stored word. The addresses are wrapped sums, decision D9 (log 9). -/
def Obligations.LoadReturnsLatestStore : Prop :=
  ∀ (s t u : State) (rt rs : Reg) (imm16 : Half) (n : Nat), Memory.wf s.dmem →
    s.fetchDecode = .ok (.sw rt rs imm16) → step s = .next t → run n t = .done u →
    (∀ k m, k < n → run k t = .done m → ∀ rt' rs' imm', m.fetchDecode = .ok (.sw rt' rs' imm') →
      m.effAddr rs' imm' ≠ s.effAddr rs imm16) →
    ∀ rd rb off, u.effAddr rb off = s.effAddr rs imm16 →
      ∃ w, exec (.lw rd rb off) u = .next w ∧
        w.readReg rd = if rd = 0 then 0 else s.readReg rt

/-! ### Decoding and encoding -/

/-- 30_encoding.md section 3 (its own derived sentence, over decision D1): for every well-formed
record, every operand at every value, decoding its encoding gives it back. -/
def Obligations.DecodeInvertsEncode : Prop :=
  (∀ i : Instr, decode (encode i) = .instr i) ∧
  (∀ r : Record, r.wellFormed = true →
    ∃ i, r.toInstr = some i ∧ i.toRecord = r ∧ decode (encode i) = .instr i)

/-- 30_encoding.md section 3: a word that decodes to an instruction is the encoding of it. -/
def Obligations.EncodeInvertsDecode : Prop :=
  ∀ (w : Word) (i : Instr), decode w = .instr i → encode i = w

/-- 30_encoding.md section 3: no word selects two rows of the opcode map, and a word is illegal
exactly when it selects none. -/
def Obligations.OpcodeRowsAreExclusive : Prop :=
  ∀ w : Word,
    (∀ r ∈ opcodeMap, ∀ r' ∈ opcodeMap, r.hits w = true → r'.hits w = true → r = r') ∧
    (decode w = .illegal ↔ ∀ r ∈ opcodeMap, r.hits w = false)

/-- 30_encoding.md section 3, the summary by primary opcode, and section 4 (must-be-zero fields,
decision D2): which words are legal. -/
def Obligations.LegalWordsByOpcode : Prop :=
  ∀ w : Word, decode w ≠ .illegal ↔
    (w.extractLsb' 26 6 = 0x00#6 ∧ w.extractLsb' 6 5 = 0#5 ∧
      (w.extractLsb' 0 6 = 0x24#6 ∨ w.extractLsb' 0 6 = 0x2A#6)) ∨
    w.extractLsb' 26 6 = 0x04#6 ∨ w.extractLsb' 26 6 = 0x08#6 ∨
    (w.extractLsb' 26 6 = 0x0F#6 ∧ w.extractLsb' 21 5 = 0#5) ∨
    w.extractLsb' 26 6 = 0x23#6 ∨ w.extractLsb' 26 6 = 0x2B#6

/-- One word per instruction and two illegal ones, as 95_test_vectors.md part 2.1 lists them. The
words rest on the presumed MIPS32 encoding (decision D1, log 11); that 0x3C2E0008, a `lui` pattern
with `A` = 1, is illegal rests on decision D2 (log 8). -/
def Obligations.SampleWordsDecode : Prop :=
  decode 0x01091024#32 = .instr (.and 2 8 9) ∧
  decode 0x23DF8000#32 = .instr (.addi 31 30 0x8000#16) ∧
  decode 0x0022F82A#32 = .instr (.slt 31 1 2) ∧
  decode 0x3C0F0F39#32 = .instr (.lui 15 0x0F39#16) ∧
  decode 0x8D28FFFC#32 = .instr (.lw 8 9 0xFFFC#16) ∧
  decode 0xAD89FFF8#32 = .instr (.sw 9 12 0xFFF8#16) ∧
  decode 0x11090001#32 = .instr (.beq 8 9 0x0001#16) ∧
  decode 0x00000000#32 = .illegal ∧ decode 0x3C2E0008#32 = .illegal

/-! ### The instructions: each completes, with its result and its frame -/

/-- R141. -/
def Obligations.AndWritesBitwiseAnd : Prop :=
  ∀ (rd rs rt : Reg) (s : State), ∃ t v, exec (.and rd rs rt) s = .next t ∧
    WritesRegister s t rd v ∧
    ∀ k, k < 32 → (v.getLsbD k = true ↔
      (s.readReg rs).getLsbD k = true ∧ (s.readReg rt).getLsbD k = true)

/-- R142: the sum wraps, whichever way the operands are read; nothing traps. -/
def Obligations.AddiWritesWrappedSum : Prop :=
  ∀ (rd rs : Reg) (imm16 : Half) (s : State), ∃ t v, exec (.addi rd rs imm16) s = .next t ∧
    WritesRegister s t rd v ∧
    v.toNat = ((s.readReg rs).toNat + (sext32 imm16).toNat) % 2 ^ 32 ∧
    v.toInt = Int.bmod ((s.readReg rs).toInt + imm16.toInt) (2 ^ 32)

/-- R143, with the signed reading of 00_scope.md R7 written out. -/
def Obligations.SltWritesSignedComparison : Prop :=
  ∀ (rd rs rt : Reg) (s : State),
    let signed : Word → Int := fun v => if v.getLsbD 31 then (v.toNat : Int) - 2 ^ 32 else v.toNat
    ∃ t v, exec (.slt rd rs rt) s = .next t ∧ WritesRegister s t rd v ∧
      (signed (s.readReg rs) < signed (s.readReg rt) → v = 0x00000001#32) ∧
      (¬signed (s.readReg rs) < signed (s.readReg rt) → v = 0x00000000#32)

/-- R144. -/
def Obligations.LuiLoadsUpperHalf : Prop :=
  ∀ (rd : Reg) (imm16 : Half) (s : State), ∃ t v, exec (.lui rd imm16) s = .next t ∧
    WritesRegister s t rd v ∧ v.extractLsb' 16 16 = imm16 ∧ v.extractLsb' 0 16 = 0#16 ∧
    v = zext32 imm16 <<< 16

/-- R161. That the address sum wraps is decision D9 (log 9), that a load to register 0 is checked
too is decision D14 (log 8). -/
def Obligations.LwLoadsTheCellOrFaults : Prop :=
  ∀ (rd rs : Reg) (imm16 : Half) (s : State) (ea : Word), ea = s.readReg rs + sext32 imm16 →
    (ea.extractLsb' 0 2 = 0#2 ∧ ea.toNat / 4 < s.params.dmemWords →
      ∃ t, exec (.lw rd rs imm16) s = .next t ∧ WritesRegister s t rd (s.cell (ea.toNat / 4))) ∧
    (¬(ea.extractLsb' 0 2 = 0#2 ∧ ea.toNat / 4 < s.params.dmemWords) →
      exec (.lw rd rs imm16) s = .fault (.memoryAccess ea))

/-- 42_load_store.md section 2, `sw`. That the address sum wraps modulo 2^32 is decision D9, unsafe
in the corner the spec names (log 9); the statement relies on it. -/
def Obligations.SwStoresTheCellOrFaults : Prop :=
  ∀ (rt rs : Reg) (imm16 : Half) (s : State) (ea : Word), Memory.wf s.dmem →
    ea = s.readReg rs + sext32 imm16 →
    (ea.extractLsb' 0 2 = 0#2 ∧ ea.toNat / 4 < s.params.dmemWords →
      ∃ t, exec (.sw rt rs imm16) s = .next t ∧ WritesCell s t ea (s.readReg rt)) ∧
    (¬(ea.extractLsb' 0 2 = 0#2 ∧ ea.toNat / 4 < s.params.dmemWords) →
      exec (.sw rt rs imm16) s = .fault (.memoryAccess ea))

/-- R180: the branch always completes; taken, the pc is `b + 4 + 4 * sext_32(imm16)` modulo 2^32 for
the branch's own address `b`, else `b + 4`; registers and cells stay as they were. -/
def Obligations.BeqRedirectsOrFallsThrough : Prop :=
  ∀ (rs rt : Reg) (imm16 : Half) (s : State), ∃ t target, exec (.beq rs rt imm16) s = .next t ∧
    MovesPc s t target ∧
    (s.readReg rs = s.readReg rt →
      (target.toNat : Int) = ((s.pc.toNat : Int) + 4 + 4 * (sext32 imm16).toInt) % 2 ^ 32) ∧
    (s.readReg rs ≠ s.readReg rt → target.toNat = (s.pc.toNat + 4) % 2 ^ 32)

/-- R182: a taken branch takes effect at once: the run goes on from the target, and the instruction
after the branch in memory is not executed. -/
def Obligations.TakenBranchHasNoDelaySlot : Prop :=
  ∀ (s : State) (rs rt : Reg) (imm16 : Half), s.fetchDecode = .ok (.beq rs rt imm16) →
    s.readReg rs = s.readReg rt →
    ∃ t, step s = .next t ∧ t.pc = s.branchTarget imm16 ∧ (∀ n, run (n + 1) s = run n t) ∧
      ∀ i, t.fetchDecode = .ok i → step t = exec i t

/-- R183: a branch to itself with equal operands repeats for ever, with no special treatment. -/
def Obligations.SelfBranchRepeats : Prop :=
  ∀ (s : State) (rs rt : Reg), s.fetchDecode = .ok (.beq rs rt 0xFFFF#16) →
    s.readReg rs = s.readReg rt → ∀ n, run n s = .done s

/-- 41_alu.md R147 (its own derived sentence): `lui` then `addi` to the same register builds
`(hi << 16) + sext_32(lo)`, and every word is built so. -/
def Obligations.LuiThenAddiBuildsAnyConstant : Prop :=
  ∀ (s : State) (rd : Reg), rd ≠ 0 →
    (∀ hi lo, ∃ t u, exec (.lui rd hi) s = .next t ∧ exec (.addi rd rd lo) t = .next u ∧
      u.readReg rd = (zext32 hi <<< 16) + sext32 lo) ∧
    (∀ c : Word, ∃ hi lo t u, exec (.lui rd hi) s = .next t ∧
      exec (.addi rd rd lo) t = .next u ∧ u.readReg rd = c)

/-- 43_branch.md R184 (its own derived sentences): `beq r, r` is always taken, and `slt` into a
temporary followed by `beq` of the temporary against register 0 branches exactly when the signed
comparison is false. -/
def Obligations.BranchIdioms : Prop :=
  (∀ (s : State) (r : Reg) (imm16 : Half),
    ∃ t, exec (.beq r r imm16) s = .next t ∧ t.pc = s.branchTarget imm16) ∧
  (∀ (s : State) (rd rs rt : Reg) (imm16 : Half), rd ≠ 0 →
    ∃ t u, exec (.slt rd rs rt) s = .next t ∧ exec (.beq rd 0 imm16) t = .next u ∧
      u.pc = if (s.readReg rs).toInt < (s.readReg rt).toInt then t.pc + 4
        else t.branchTarget imm16)

/-- R140: the four ALU and immediate instructions read at most two registers, write the destination,
advance the pc, access no memory and cannot fault. -/
def Obligations.AluInstructionsAlwaysComplete : Prop :=
  ∀ (i : Instr) (s : State),
    ((∃ rd rs rt, i = .and rd rs rt) ∨ (∃ rd rs imm16, i = .addi rd rs imm16) ∨
     (∃ rd rs rt, i = .slt rd rs rt) ∨ (∃ rd imm16, i = .lui rd imm16)) →
    i.sources.length ≤ 2 ∧
    (∃ rd t v, i.dest = some rd ∧ exec i s = .next t ∧ WritesRegister s t rd v ∧
      t.dmem = s.dmem) ∧
    (∀ f, s.fetchDecode = .ok i → step s ≠ .fault f)

/-! ### The step -/

/-- 40_execution_loop.md R122 to R124: when the word at the pc decodes to an instruction, which is
then well formed, the step is that instruction. -/
def Obligations.StepRunsTheDecodedInstruction : Prop :=
  ∀ (s : State) (w : Word) (i : Instr), s.fetch s.pc = .ok w → decode w = .instr i →
    i.wellFormed = true ∧ step s = exec i s

/-- R121: a step answers a next state or a fault, never anything else, and a fault leaves the state
exactly as it was; no instruction is refused. -/
def Obligations.StepHasTwoOutcomes : Prop :=
  ∀ s : State,
    ((∃ t, step s = .next t) ∨ (∃ f, step s = .fault f ∧ run 1 s = .faulted f s)) ∧
    (∀ r, step s ≠ .refused r) ∧ (∀ i r, exec i s ≠ .refused r)

/-- 40_execution_loop.md R126, with decision D9 (log 9) for the store: exactly one of a register
write, a memory write, a branch redirect or nothing per completed step, by the kind of its
instruction. The cell an `sw` writes is the one at its effective address, a wrapped sum by D9. -/
def Obligations.OneEffectPerStep : Prop :=
  ∀ s t : State, Memory.wf s.dmem → step s = .next t → ∃ i, s.fetchDecode = .ok i ∧
    ((∃ rd v, i.dest = some rd ∧ WritesRegister s t rd v) ∨
     (∃ rt rs imm16, i = .sw rt rs imm16 ∧
       WritesCell s t (s.effAddr rs imm16) (s.readReg rt)) ∨
     (∃ rs rt imm16, i = .beq rs rt imm16 ∧ MovesPc s t
       (if s.readReg rs = s.readReg rt then s.branchTarget imm16 else s.pc + 4)))

/-- 40_execution_loop.md R133 (its own derived rule), (a) to (d). In (d) the one register that may
differ is the destination of the instruction fetched, the one cell that may differ is the one at the
effective address of the `sw` fetched, which wraps by decision D9 (log 9), and a `beq` changes
neither. -/
def Obligations.EveryStepPreserves : Prop :=
  ∀ s t : State, Memory.wf s.dmem → step s = .next t →
    t.readReg 0 = 0 ∧ (s.pc.toNat % 4 = 0 → t.pc.toNat % 4 = 0) ∧
    t.params = s.params ∧ t.snapshotMemory.length = s.snapshotMemory.length ∧
    ∃ i, s.fetchDecode = .ok i ∧
      ((∃ rd, i.dest = some rd ∧ (∀ r, r ≠ rd → t.readReg r = s.readReg r) ∧
          ∀ j, t.cell j = s.cell j) ∨
       (∃ rt rs imm16, i = .sw rt rs imm16 ∧ (∀ r, t.readReg r = s.readReg r) ∧
          ∀ j, j ≠ wordIndex (s.effAddr rs imm16) → t.cell j = s.cell j) ∨
       (∃ rs rt imm16, i = .beq rs rt imm16 ∧ (∀ r, t.readReg r = s.readReg r) ∧
          ∀ j, t.cell j = s.cell j))

/-- The invariant `State.Inv` (admissible parameters, word-aligned pc, data memory in canonical
form and in range) is kept by every step from every state that meets it. -/
def Obligations.InvariantKeptByEveryStep : Prop :=
  ∀ s t : State, s.Inv → step s = .next t → t.Inv

/-- `State.Inv` holds at reset, for every admissible choice of the parameters. -/
def Obligations.InvariantHoldsAtReset : Prop :=
  State.reset.Inv ∧ ∀ p : Params, p.Admissible → (State.resetWith p).Inv

/-- 10_state.md R27 (its own derived rule), and more: every state reachable from reset, for every
program and every other parameter, meets `State.Inv`; the parameters are those of the reset. -/
def Obligations.ReachableStatesMeetTheInvariant : Prop :=
  ∀ (p : Params) (s : State), p.Admissible → Reachable p s →
    s.Inv ∧ s.params = p ∧ s.pc.extractLsb' 0 2 = 0#2

/-- 40_execution_loop.md R131 (its own derived rule): the fixed points of `step` are exactly the
self-branches with equal operands; any other completed step changes the pc. -/
def Obligations.FixedPointsAreSelfBranches : Prop :=
  ∀ s : State,
    (FixedPoint s ↔ ∃ rs rt, s.fetchDecode = .ok (.beq rs rt 0xFFFF#16) ∧
      s.readReg rs = s.readReg rt) ∧
    (∀ t, step s = .next t → ¬FixedPoint s → t.pc ≠ s.pc)

/-! ### Faults -/

/-- R191: when, and with what address, a step raises the program-counter fault. -/
def Obligations.ProgramCounterFaultExactly : Prop :=
  ∀ (s : State) (a : Word), step s = .fault (.programCounterOutOfRange a) ↔
    a = s.pc ∧ (a.extractLsb' 0 2 ≠ 0#2 ∨ s.params.program.length ≤ a.toNat / 4)

/-- 60_exceptions.md section 1, MemoryAccessError: when, and with what address, a step raises the
memory fault. The address is the wrapped sum, decision D9 (log 9), and a load to register 0 faults on
a bad one too, decision D14 (log 8). -/
def Obligations.MemoryFaultExactly : Prop :=
  ∀ (s : State) (a : Word), step s = .fault (.memoryAccess a) ↔
    ∃ r rs imm16, (s.fetchDecode = .ok (.lw r rs imm16) ∨ s.fetchDecode = .ok (.sw r rs imm16)) ∧
      a = s.readReg rs + sext32 imm16 ∧
      (a.extractLsb' 0 2 ≠ 0#2 ∨ s.params.dmemWords ≤ a.toNat / 4)

/-- 60_exceptions.md section 1 (decision D3, log 8): when, and with what report, a step raises the
illegal-instruction fault. The patterns are those of the presumed encoding (decisions D1 and D2, log
11 and log 8). -/
def Obligations.IllegalInstructionFaultExactly : Prop :=
  ∀ (s : State) (a w : Word), step s = .fault (.illegalInstruction a w) ↔
    a = s.pc ∧ s.fetch s.pc = .ok w ∧ ∀ r ∈ opcodeMap, w &&& r.mask ≠ r.pattern

/-- 60_exceptions.md R195 (decision D12, log 8): a fault repeats itself for ever and no run leaves
the state it arose in. -/
def Obligations.FaultIsSticky : Prop :=
  ∀ (s : State) (f : Fault), step s = .fault f →
    (∀ n, run (n + 1) s = .faulted f s) ∧ (∀ n t, run n s = .done t → t = s)

/-- 60_exceptions.md R196 (decision D12, log 8): the report of a faulting step. The effective
address is the wrapped sum, decision D9 (log 9). -/
def Obligations.FaultReportNamesTheAddress : Prop :=
  ∀ (s : State) (f : Fault), step s = .fault f →
    (f.report.kind = .programCounterOutOfRangeError → f.report.addr = s.pc) ∧
    (f.report.kind = .illegalInstruction → f.report.addr = s.pc ∧
      ∃ w, f.report.word = some w ∧ s.fetch s.pc = .ok w) ∧
    (f.report.kind = .memoryAccessError → ∃ r rs imm16,
      (s.fetchDecode = .ok (.lw r rs imm16) ∨ s.fetchDecode = .ok (.sw r rs imm16)) ∧
      f.report.addr = s.effAddr rs imm16) ∧
    (f.report.word ≠ none → f.report.kind = .illegalInstruction)

/-! ### Reset, runs and the host -/

/-- R231: the state after reset. -/
def Obligations.ResetGivesEveryPieceItsValue : Prop :=
  ∀ p : Params,
    (State.resetWith p).readReg 0 = 0 ∧
    (∀ (i : Reg) (h : i ≠ 0),
      (State.resetWith p).readReg i = p.regReset[i.val - 1]'(by have := Fin.val_ne_of_ne h; omega)) ∧
    (State.resetWith p).pc = p.entry ∧
    (∀ j, j < p.dmemWords → (State.resetWith p).cell j = 0)

/-- 70_reset_and_hazards.md R230 (decision D11, log 8): reset forgets the state it comes from; the
parameters stay those of the first reset. -/
def Obligations.HostResetForgetsTheState : Prop :=
  ∀ s t : State, s.params = t.params →
    s.hostReset = t.hostReset ∧ s.hostReset.params = s.params ∧
    (∀ n u, run n (State.resetWith s.params) = .done u → u.hostReset = s.hostReset)

/-- R130: `run` is repeated stepping; budgets add up, and a run that faults stops there with the
state as it stood before the failing step. -/
def Obligations.RunIsRepeatedStepping : Prop :=
  ∀ (s : State) (m n : Nat),
    run 0 s = .done s ∧
    (∀ t, step s = .next t → run (n + 1) s = run n t) ∧
    (∀ f, step s = .fault f → run (n + 1) s = .faulted f s) ∧
    (∀ t, run m s = .done t → run (m + n) s = run n t) ∧
    (∀ f t, run m s = .faulted f t → run (m + n) s = .faulted f t ∧ step t = .fault f)

/-- 60_exceptions.md R210 (decision D18, log 8): a program's result does not change under further
steps, and there is at most one. -/
def Obligations.NormalEndIsStableAndUnique : Prop :=
  ∀ (p : Params) (s : State), EndsNormally p s →
    (∀ n, run n s = .done s) ∧ (∀ s', EndsNormally p s' → s' = s)

/-- 10_state.md R40 (its last sentence is decision D24, log 10): the snapshots. -/
def Obligations.SnapshotsShowTheState : Prop :=
  ∀ s : State,
    (∀ i : Reg, s.snapshotRegisters[i.val] = s.readReg i) ∧ s.snapshotRegisters[0] = 0 ∧
    s.snapshotMemory.length = s.params.dmemWords ∧
    (∀ j, j < s.params.dmemWords → s.snapshotMemory[j]? = some (s.cell j))

/-! ### Programs as records, and branch offsets -/

/-- 30_encoding.md section 3 and decision D23 (log 6): a program given as records runs those records,
and never raises the illegal-instruction fault. The words stand for the records by the presumed
encoding (decision D1, log 11). -/
def Obligations.ProgramOfRecordsRunsThem : Prop :=
  ∀ (s : State) (l : List Instr), s.params.program = programOfRecords l →
    (∀ k i, l[k]? = some i → s.pc.toNat = 4 * k → step s = exec i s) ∧
    (∀ a w, step s ≠ .fault (.illegalInstruction a w))

/-- 30_encoding.md R107 (decision D21 on its range, log 13) with 43_branch.md R181: a taken branch
whose field was made for a label goes to the label's slot. -/
def Obligations.BranchToALabelReachesIt : Prop :=
  ∀ (s : State) (b l : Nat) (f : Half) (rs rt : Reg), branchField b l = some f →
    s.pc.toNat = 4 * b → l < 2 ^ 30 → s.readReg rs = s.readReg rt →
    ∃ t, exec (.beq rs rt f) s = .next t ∧ t.pc.toNat = 4 * l
end

