-- ==== Sys2Proof/Laws/Decode.lean ====
section
/-!
SUPPORT. The fields of an instruction word in plain arithmetic, and each row of the opcode map as
equations on fields; from there a question about an encoding is one for omega.
-/
namespace Sys2Proof

/-! ### Fields -/

theorem fieldA_val (w : Word) : (fieldA w).val = w.toNat / 2 ^ 21 % 32 := by
  change (w.extractLsb' 21 5).toNat = _
  rw [BitVec.extractLsb'_toNat, Nat.shiftRight_eq_div_pow]

theorem fieldB_val (w : Word) : (fieldB w).val = w.toNat / 2 ^ 16 % 32 := by
  change (w.extractLsb' 16 5).toNat = _
  rw [BitVec.extractLsb'_toNat, Nat.shiftRight_eq_div_pow]

theorem fieldC_val (w : Word) : (fieldC w).val = w.toNat / 2 ^ 11 % 32 := by
  change (w.extractLsb' 11 5).toNat = _
  rw [BitVec.extractLsb'_toNat, Nat.shiftRight_eq_div_pow]

theorem fieldImm_toNat (w : Word) : (fieldImm w).toNat = w.toNat % 65536 := by
  simp [fieldImm]

/-! ### Formats -/

theorem append_toNat {m n : Nat} (x : BitVec m) (y : BitVec n) :
    (x ++ y).toNat = x.toNat * 2 ^ n + y.toNat := by
  rw [BitVec.toNat_append, ← Nat.shiftLeft_add_eq_or_of_lt y.isLt, Nat.shiftLeft_eq]

@[simp] theorem regBits_toNat (r : Reg) : (regBits r).toNat = r.val := rfl

theorem formatI_toNat (op : BitVec 6) (a b : Reg) (v : Half) :
    (formatI op a b v).toNat =
      op.toNat * 2 ^ 26 + a.val * 2 ^ 21 + b.val * 2 ^ 16 + v.toNat := by
  simp only [formatI, append_toNat, regBits_toNat]
  ring

theorem formatR_toNat (a b c : Reg) (f : BitVec 6) :
    (formatR a b c f).toNat =
      a.val * 2 ^ 21 + b.val * 2 ^ 16 + c.val * 2 ^ 11 + f.toNat := by
  simp only [formatR, append_toNat, regBits_toNat, BitVec.toNat_ofNat]
  ring_nf

/-! ### Masks -/

theorem and_FC_toNat (w : Word) :
    (w &&& 0xFC000000#32).toNat = w.toNat / 2 ^ 26 * 2 ^ 26 := by
  have h : w &&& 0xFC000000#32 = (w >>> 26) <<< 26 := by
    apply BitVec.eq_of_getLsbD_eq
    intro i hi
    simp only [BitVec.getLsbD_and, BitVec.getLsbD_shiftLeft, BitVec.getLsbD_ushiftRight]
    interval_cases i <;> simp
  have := w.isLt
  rw [h, BitVec.toNat_shiftLeft, BitVec.toNat_ushiftRight, Nat.shiftLeft_eq,
    Nat.shiftRight_eq_div_pow]
  omega

theorem and_FFE_toNat (w : Word) :
    (w &&& 0xFFE00000#32).toNat = w.toNat / 2 ^ 21 * 2 ^ 21 := by
  have h : w &&& 0xFFE00000#32 = (w >>> 21) <<< 21 := by
    apply BitVec.eq_of_getLsbD_eq
    intro i hi
    simp only [BitVec.getLsbD_and, BitVec.getLsbD_shiftLeft, BitVec.getLsbD_ushiftRight]
    interval_cases i <;> simp
  have := w.isLt
  rw [h, BitVec.toNat_shiftLeft, BitVec.toNat_ushiftRight, Nat.shiftLeft_eq,
    Nat.shiftRight_eq_div_pow]
  omega

theorem and_7FF_toNat (w : Word) : (w &&& 0x7FF#32).toNat = w.toNat % 2 ^ 11 := by
  rw [BitVec.toNat_and]
  exact Nat.and_two_pow_sub_one_eq_mod w.toNat 11

/-- The mask of format R selects the opcode and the low 11 bits (shamt and funct). -/
theorem and_FC7FF_iff (w p : Word) (hp : p &&& 0xFC0007FF#32 = p) :
    w &&& 0xFC0007FF#32 = p ↔
      w &&& 0xFC000000#32 = p &&& 0xFC000000#32 ∧ w &&& 0x7FF#32 = p &&& 0x7FF#32 := by
  have hsplit : (0xFC0007FF#32 : Word) = 0xFC000000#32 ||| 0x7FF#32 := by decide
  constructor
  · rintro rfl
    constructor <;> rw [BitVec.and_assoc] <;> congr 1
  · rintro ⟨h1, h2⟩
    rw [hsplit, BitVec.and_or_distrib_left, h1, h2, ← BitVec.and_or_distrib_left, ← hsplit, hp]

/-! ### Rows -/

theorem rowAnd_hits (w : Word) :
    rowAnd.hits w = true ↔ w.toNat / 2 ^ 26 = 0 ∧ w.toNat % 2 ^ 11 = 0x24 := by
  have e1 : (0x24#32 &&& 0xFC000000#32 : Word).toNat = 0 := by decide
  have e2 : (0x24#32 &&& 0x7FF#32 : Word).toNat = 0x24 := by decide
  simp only [EncodingRow.hits, rowAnd, beq_iff_eq]
  rw [and_FC7FF_iff w _ (by decide), ← BitVec.toNat_inj, ← BitVec.toNat_inj, and_FC_toNat,
    and_7FF_toNat, e1, e2]
  omega

theorem rowSlt_hits (w : Word) :
    rowSlt.hits w = true ↔ w.toNat / 2 ^ 26 = 0 ∧ w.toNat % 2 ^ 11 = 0x2A := by
  have e1 : (0x2A#32 &&& 0xFC000000#32 : Word).toNat = 0 := by decide
  have e2 : (0x2A#32 &&& 0x7FF#32 : Word).toNat = 0x2A := by decide
  simp only [EncodingRow.hits, rowSlt, beq_iff_eq]
  rw [and_FC7FF_iff w _ (by decide), ← BitVec.toNat_inj, ← BitVec.toNat_inj, and_FC_toNat,
    and_7FF_toNat, e1, e2]
  omega

theorem rowAddi_hits (w : Word) : rowAddi.hits w = true ↔ w.toNat / 2 ^ 26 = 0x08 := by
  simp only [EncodingRow.hits, rowAddi, beq_iff_eq]
  rw [← BitVec.toNat_inj, and_FC_toNat, BitVec.toNat_ofNat]
  omega

theorem rowLui_hits (w : Word) : rowLui.hits w = true ↔ w.toNat / 2 ^ 21 = 0x0F * 32 := by
  simp only [EncodingRow.hits, rowLui, beq_iff_eq]
  rw [← BitVec.toNat_inj, and_FFE_toNat, BitVec.toNat_ofNat]
  omega

theorem rowLw_hits (w : Word) : rowLw.hits w = true ↔ w.toNat / 2 ^ 26 = 0x23 := by
  simp only [EncodingRow.hits, rowLw, beq_iff_eq]
  rw [← BitVec.toNat_inj, and_FC_toNat, BitVec.toNat_ofNat]
  omega

theorem rowSw_hits (w : Word) : rowSw.hits w = true ↔ w.toNat / 2 ^ 26 = 0x2B := by
  simp only [EncodingRow.hits, rowSw, beq_iff_eq]
  rw [← BitVec.toNat_inj, and_FC_toNat, BitVec.toNat_ofNat]
  omega

theorem rowBeq_hits (w : Word) : rowBeq.hits w = true ↔ w.toNat / 2 ^ 26 = 0x04 := by
  simp only [EncodingRow.hits, rowBeq, beq_iff_eq]
  rw [← BitVec.toNat_inj, and_FC_toNat, BitVec.toNat_ofNat]
  omega

end Sys2Proof
end

