-- ==== Sys2Proof/Laws/State.lean ====
section
/-!
SUPPORT. One lemma per field per update of State, each true by rfl or by a case split on the
discarded write, so that no later proof unfolds a record update.
-/
namespace Sys2Proof.Machine
variable (s : State) (i : Reg) (v t : Word) (j : Nat)

/-! setPc and advance -/

@[simp] theorem State.setPc_x : (s.setPc t).x = s.x := rfl
@[simp] theorem State.setPc_pc : (s.setPc t).pc = t := rfl
@[simp] theorem State.setPc_dmem : (s.setPc t).dmem = s.dmem := rfl
@[simp] theorem State.setPc_params : (s.setPc t).params = s.params := rfl
@[simp] theorem State.setPc_readReg : (s.setPc t).readReg i = s.readReg i := rfl
@[simp] theorem State.setPc_cell : (s.setPc t).cell j = s.cell j := rfl
@[simp] theorem State.advance_x : s.advance.x = s.x := rfl
@[simp] theorem State.advance_pc : s.advance.pc = s.pc + 4 := rfl
@[simp] theorem State.advance_dmem : s.advance.dmem = s.dmem := rfl
@[simp] theorem State.advance_params : s.advance.params = s.params := rfl
@[simp] theorem State.advance_readReg : s.advance.readReg i = s.readReg i := rfl
@[simp] theorem State.advance_cell : s.advance.cell j = s.cell j := rfl

/-! storeCell -/

@[simp] theorem State.storeCell_x : (s.storeCell j v).x = s.x := rfl
@[simp] theorem State.storeCell_pc : (s.storeCell j v).pc = s.pc := rfl
@[simp] theorem State.storeCell_dmem : (s.storeCell j v).dmem = Memory.store s.dmem j v := rfl
@[simp] theorem State.storeCell_params : (s.storeCell j v).params = s.params := rfl
@[simp] theorem State.storeCell_readReg : (s.storeCell j v).readReg i = s.readReg i := rfl

/-! writeReg and retire -/

@[simp] theorem State.writeReg_pc : (s.writeReg i v).pc = s.pc := by
  unfold State.writeReg; split <;> rfl
@[simp] theorem State.writeReg_dmem : (s.writeReg i v).dmem = s.dmem := by
  unfold State.writeReg; split <;> rfl
@[simp] theorem State.writeReg_params : (s.writeReg i v).params = s.params := by
  unfold State.writeReg; split <;> rfl
@[simp] theorem State.writeReg_cell : (s.writeReg i v).cell j = s.cell j := by
  simp [State.cell]
@[simp] theorem State.retire_x : (s.retire i v).x = (s.writeReg i v).x := rfl
@[simp] theorem State.retire_pc : (s.retire i v).pc = s.pc + 4 := by simp [State.retire]
@[simp] theorem State.retire_dmem : (s.retire i v).dmem = s.dmem := by simp [State.retire]
@[simp] theorem State.retire_params : (s.retire i v).params = s.params := by simp [State.retire]
@[simp] theorem State.retire_cell : (s.retire i v).cell j = s.cell j := by simp [State.retire]

/-! reset and load -/

variable (p : Params) (w : Word)

@[simp] theorem State.resetWith_x : (State.resetWith p).x = p.regReset := rfl
@[simp] theorem State.resetWith_pc : (State.resetWith p).pc = p.entry := rfl
@[simp] theorem State.resetWith_dmem : (State.resetWith p).dmem = [] := rfl
@[simp] theorem State.resetWith_params : (State.resetWith p).params = p := rfl
@[simp] theorem State.resetWith_cell : (State.resetWith p).cell j = 0 := rfl
@[simp] theorem State.loadAtPc_x : (s.loadAtPc w).x = s.x := rfl
@[simp] theorem State.loadAtPc_pc : (s.loadAtPc w).pc = alignDown s.pc := rfl
@[simp] theorem State.loadAtPc_dmem : (s.loadAtPc w).dmem = s.dmem := rfl
@[simp] theorem State.loadAtPc_program :
    (s.loadAtPc w).params.program = placeSlot s.params.program (wordIndex s.pc) w := rfl
@[simp] theorem State.loadAtPc_dmemWords : (s.loadAtPc w).params.dmemWords = s.params.dmemWords := rfl
@[simp] theorem State.loadAtPc_entry : (s.loadAtPc w).params.entry = s.params.entry := rfl
@[simp] theorem State.loadAtPc_regReset : (s.loadAtPc w).params.regReset = s.params.regReset := rfl

end Sys2Proof.Machine
end

