-- ==== Sys2Proof/Laws/Memory.lean ====
section
/-!
SUPPORT. The laws of the data memory: a read after a store, that a store keeps the canonical form and
the range of the listed cells, and that the cells determine a memory in that form.
-/
namespace Sys2Proof.Machine

@[simp] theorem Memory.cell_nil (j : Nat) : Memory.cell [] j = Memory.unlisted := rfl

/-- The empty memory, the one at reset, is in canonical form. -/
theorem Memory.wf_nil : Memory.wf [] := by simp [Memory.wf]

theorem Memory.wf_cons (e : Nat × Word) (m : Memory) :
    Memory.wf (e :: m) ↔ (∀ e' ∈ m, e.1 < e'.1) ∧ e.2 ≠ Memory.unlisted ∧ Memory.wf m := by
  simp only [Memory.wf, List.pairwise_cons, List.forall_mem_cons]
  tauto

/-- A cell below every listed one reads as unlisted. -/
theorem Memory.cell_of_lt (m : Memory) (j : Nat) (h : ∀ e ∈ m, j < e.1) :
    Memory.cell m j = Memory.unlisted := by
  induction m with
  | nil => rfl
  | cons e m ih =>
    have h1 := h e (by simp)
    simp only [Memory.cell]
    rw [if_neg (by omega), ih fun e' he' => h e' (by simp [he'])]

theorem Memory.cell_enter (m : Memory) (j k : Nat) (v : Word) (h : ∀ e ∈ m, j < e.1) :
    Memory.cell (Memory.enter j v m) k = if k = j then v else Memory.cell m k := by
  unfold Memory.enter
  split
  · subst v
    split
    · subst k; exact Memory.cell_of_lt m j h
    · rfl
  · simp only [Memory.cell, eq_comm]

theorem Memory.wf_enter (m : Memory) (j : Nat) (v : Word) (hm : Memory.wf m)
    (h : ∀ e ∈ m, j < e.1) : Memory.wf (Memory.enter j v m) := by
  unfold Memory.enter
  split
  · exact hm
  · exact (Memory.wf_cons _ _).2 ⟨h, ‹_›, hm⟩

theorem Memory.mem_enter {m : Memory} {j : Nat} {v : Word} {e : Nat × Word}
    (h : e ∈ Memory.enter j v m) : e.1 = j ∨ e ∈ m := by
  unfold Memory.enter at h
  split at h
  · exact .inr h
  · rcases List.mem_cons.1 h with h | h
    · exact .inl (by simp [h])
    · exact .inr h

/-- Every entry after a store is at the stored cell or was there before. -/
theorem Memory.mem_store {m : Memory} {j : Nat} {v : Word} {e : Nat × Word}
    (h : e ∈ Memory.store m j v) : e.1 = j ∨ e ∈ m := by
  induction m with
  | nil => exact Memory.mem_enter h
  | cons e' m ih =>
    simp only [Memory.store] at h
    split at h
    · exact Memory.mem_enter h
    · split at h
      · exact (Memory.mem_enter h).imp_right (List.mem_cons_of_mem _)
      · rcases List.mem_cons.1 h with h | h
        · exact .inr (by simp [h])
        · exact (ih h).imp_right (List.mem_cons_of_mem _)

/-- A read after a store, on a memory in canonical form. -/
theorem Memory.cell_store (m : Memory) (j k : Nat) (v : Word) (hm : Memory.wf m) :
    Memory.cell (Memory.store m j v) k = if k = j then v else Memory.cell m k := by
  induction m with
  | nil => exact Memory.cell_enter [] j k v (by simp)
  | cons e m ih =>
    obtain ⟨hlt, -, hm'⟩ := (Memory.wf_cons _ _).1 hm
    simp only [Memory.store]
    split
    · refine Memory.cell_enter _ j k v ?_
      simp only [List.forall_mem_cons]
      exact ⟨‹_›, fun e' he' => lt_trans ‹_› (hlt e' he')⟩
    · split
      · rename_i h
        rw [Memory.cell_enter m j k v (by simpa [h] using hlt)]
        simp only [Memory.cell]
        split
        · rfl
        · rw [if_neg (by omega)]
      · simp only [Memory.cell, ih hm']
        by_cases hk : e.1 = k
        · rw [if_pos hk, if_pos hk, if_neg (by omega)]
        · rw [if_neg hk, if_neg hk]

/-- A store keeps the canonical form. -/
theorem Memory.wf_store (m : Memory) (j : Nat) (v : Word) (hm : Memory.wf m) :
    Memory.wf (Memory.store m j v) := by
  induction m with
  | nil => exact Memory.wf_enter [] j v hm (by simp)
  | cons e m ih =>
    obtain ⟨hlt, hne, hm'⟩ := (Memory.wf_cons _ _).1 hm
    simp only [Memory.store]
    split
    · refine Memory.wf_enter _ j v hm ?_
      simp only [List.forall_mem_cons]
      exact ⟨‹_›, fun e' he' => lt_trans ‹_› (hlt e' he')⟩
    · split
      · exact Memory.wf_enter m j v hm' (by simpa [‹j = e.1›] using hlt)
      · refine (Memory.wf_cons _ _).2 ⟨fun e' he' => ?_, hne, ih hm'⟩
        rcases Memory.mem_store he' with h | h
        · omega
        · exact hlt e' h

/-- Two memories in canonical form with equal cells are equal. -/
theorem Memory.ext_of_wf (m m' : Memory) (hm : Memory.wf m) (hm' : Memory.wf m')
    (h : ∀ j, Memory.cell m j = Memory.cell m' j) : m = m' := by
  induction m generalizing m' with
  | nil =>
    cases m' with
    | nil => rfl
    | cons e m' =>
      obtain ⟨-, hne, -⟩ := (Memory.wf_cons _ _).1 hm'
      exact absurd (by simpa [Memory.cell] using (h e.1).symm) hne
  | cons e m ih =>
    obtain ⟨hlt, hne, hw⟩ := (Memory.wf_cons _ _).1 hm
    cases m' with
    | nil => exact absurd (by simpa [Memory.cell] using h e.1) hne
    | cons e' m' =>
      obtain ⟨hlt', hne', hw'⟩ := (Memory.wf_cons _ _).1 hm'
      have below : ∀ j, j < e.1 → Memory.cell (e :: m) j = Memory.unlisted := fun j hj =>
        Memory.cell_of_lt _ j fun a ha => by
          rcases List.mem_cons.1 ha with rfl | ha
          · exact hj
          · exact lt_trans hj (hlt a ha)
      have below' : ∀ j, j < e'.1 → Memory.cell (e' :: m') j = Memory.unlisted := fun j hj =>
        Memory.cell_of_lt _ j fun a ha => by
          rcases List.mem_cons.1 ha with rfl | ha
          · exact hj
          · exact lt_trans hj (hlt' a ha)
      have hkey : e.1 = e'.1 := by
        rcases lt_trichotomy e.1 e'.1 with hk | hk | hk
        · exact absurd ((by simpa [Memory.cell] using h e.1 : e.2 = _).trans (below' _ hk)) hne
        · exact hk
        · refine absurd ?_ hne'
          have h1 := h e'.1
          rw [below _ hk] at h1
          simpa [Memory.cell] using h1.symm
      have hval : e.2 = e'.2 := by
        have h1 := h e.1
        simpa [Memory.cell, hkey] using h1
      rw [Prod.ext hkey hval, ih m' hw hw' fun j => ?_]
      rcases Nat.lt_or_ge e.1 j with hj | hj
      · have h1 := h j
        simpa [Memory.cell, ← hkey, Nat.ne_of_lt hj] using h1
      · rw [Memory.cell_of_lt m j fun a ha => lt_of_le_of_lt hj (hlt a ha),
          Memory.cell_of_lt m' j fun a ha => lt_of_le_of_lt hj (hkey ▸ hlt' a ha)]

/-- The cells of a state after a store to one. -/
theorem State.cell_storeCell (s : State) (j k : Nat) (v : Word) (hm : Memory.wf s.dmem) :
    (s.storeCell j v).cell k = if k = j then v else s.cell k :=
  Memory.cell_store s.dmem j k v hm

end Sys2Proof.Machine
end

