-- ==== Sys2Proof/Laws/Operands.lean ====
section
/-!
SUPPORT. The operand forms and the address predicates in plain arithmetic.
-/
namespace Sys2Proof.Machine

/-- Alignment as arithmetic. -/
theorem aligned_iff (a : Word) : aligned a = true ↔ a.toNat % 4 = 0 := by
  simp only [aligned, beq_iff_eq, ← BitVec.toNat_inj, BitVec.extractLsb'_toNat]
  simp

/-- `DataAddrOK` as arithmetic. -/
theorem State.dataAddrOK_iff (s : State) (a : Word) :
    s.dataAddrOK a = true ↔ a.toNat % 4 = 0 ∧ a.toNat / 4 < s.params.dmemWords := by
  rw [State.dataAddrOK, Bool.and_eq_true, aligned_iff, decide_eq_true_iff, wordIndex]

/-- Sign extension keeps the signed reading. -/
theorem sext32_toInt (v : Half) : (sext32 v).toInt = v.toInt :=
  BitVec.toInt_signExtend_of_le (by decide)

theorem zext32_toNat (v : Half) : (zext32 v).toNat = v.toNat := by
  have := v.isLt
  simp [zext32]
  omega

/-- The operand of `lui` is the field times 2^16. -/
theorem luiOperand_toNat (v : Half) : (luiOperand v).toNat = v.toNat * 65536 := by
  have := v.isLt
  rw [luiOperand, BitVec.toNat_shiftLeft, zext32_toNat, Nat.shiftLeft_eq]
  omega

/-- The operand of `lui` is the field with 16 zero bits below it. -/
theorem luiOperand_eq_append (v : Half) : luiOperand v = (v ++ 0#16 : BitVec (16 + 16)) := by
  apply BitVec.eq_of_toNat_eq
  rw [luiOperand_toNat, BitVec.toNat_append, Nat.shiftLeft_eq]
  simp

/-- The operand of `beq` is a multiple of 4. -/
theorem branchOperand_mod (v : Half) : (branchOperand v).toNat % 4 = 0 := by
  have h4 : (4 : Word).toNat = 4 := by decide
  rw [branchOperand, BitVec.toNat_mul, h4]
  omega

/-- The operand of `beq` is -4 only for the offset -1 (40_execution_loop.md R131). -/
theorem branchOperand_eq_neg4 (v : Half) : branchOperand v = -4 ↔ v = 0xFFFF#16 := by
  constructor
  · intro h
    have h1 : (branchOperand v).toInt = (-4 : Word).toInt := by rw [h]
    rw [branchOperand, BitVec.toInt_mul, sext32_toInt] at h1
    have hlo := BitVec.le_toInt v
    have hhi := BitVec.toInt_lt (x := v)
    have h4 : (4 : Word).toInt = 4 := by decide
    have hn4 : (-4 : Word).toInt = -4 := by decide
    rw [h4, hn4, Int.bmod_eq_of_le (by omega) (by omega)] at h1
    apply BitVec.eq_of_toInt_eq
    have : (0xFFFF#16 : Half).toInt = -1 := by decide
    omega
  · rintro rfl
    decide

/-- The signed comparison as the readings of 00_scope.md R7. -/
theorem signedLess_iff (a b : Word) : signedLess a b = true ↔ a.toInt < b.toInt := by
  simp [signedLess]

@[simp] theorem branchTaken_iff (a b : Word) : branchTaken a b = true ↔ a = b := by
  simp [branchTaken]

end Sys2Proof.Machine
end

