-- ==== Sys2Proof/Laws/Ops.lean ====
section
/-!
SUPPORT. One lemma per shared operation that says everything the operation can do: the memory
access, the fetch, fetch with decode, the host's load of a word.
-/
namespace Sys2Proof.Machine

/-- A read answers the addressed cell when the address is good, and faults with it otherwise. -/
theorem State.memRead_cases (s : State) (a : Word) :
    (s.dataAddrOK a = true ∧ s.memRead a = .ok (s.cell (wordIndex a))) ∨
      (s.dataAddrOK a = false ∧ s.memRead a = .error (.memoryAccess a)) := by
  cases h : s.dataAddrOK a <;> simp [State.memRead, h]

/-- A write replaces the addressed cell when the address is good, and faults with it otherwise. -/
theorem State.memWrite_cases (s : State) (a v : Word) :
    (s.dataAddrOK a = true ∧ s.memWrite a v = .ok (s.storeCell (wordIndex a) v)) ∨
      (s.dataAddrOK a = false ∧ s.memWrite a v = .error (.memoryAccess a)) := by
  cases h : s.dataAddrOK a <;> simp [State.memWrite, h]

/-- A fetch answers the word of the slot at a word-aligned address, and faults where there is none. -/
theorem State.fetch_cases (s : State) (a : Word) :
    (∃ w, a.toNat % 4 = 0 ∧ s.params.program[a.toNat / 4]? = some w ∧ s.fetch a = .ok w) ∨
      ((a.toNat % 4 ≠ 0 ∨ s.params.program.length ≤ a.toNat / 4) ∧
        s.fetch a = .error (.programCounterOutOfRange a)) := by
  by_cases ha : aligned a = true
  · have ha4 := (aligned_iff a).1 ha
    cases hw : s.params.program[wordIndex a]? with
    | some w => exact .inl ⟨w, ha4, hw, by simp [State.fetch, ha, hw]⟩
    | none => exact .inr ⟨.inr (List.getElem?_eq_none_iff.1 hw), by simp [State.fetch, ha, hw]⟩
  · exact .inr ⟨.inl fun h => ha ((aligned_iff a).2 h), by simp [State.fetch, ha]⟩

/-- Fetch and decode answer an instruction exactly when a word is fetched that decodes to it. -/
theorem State.fetchDecode_ok_iff (s : State) (i : Instr) :
    s.fetchDecode = .ok i ↔ ∃ w, s.fetch s.pc = .ok w ∧ decode w = .instr i := by
  unfold State.fetchDecode
  cases s.fetch s.pc with
  | error f => simp
  | ok w => cases h : decode w <;> simp [h]

/-- Fetch and decode fault with the fetch's fault, or with an illegal word. -/
theorem State.fetchDecode_error_iff (s : State) (f : Fault) :
    s.fetchDecode = .error f ↔ s.fetch s.pc = .error f ∨
      ∃ w, s.fetch s.pc = .ok w ∧ decode w = .illegal ∧ f = .illegalInstruction s.pc w := by
  unfold State.fetchDecode
  cases s.fetch s.pc with
  | error g => simp
  | ok w => cases h : decode w <;> simp [h, eq_comm]

theorem placeSlot_getElem? (l : List Word) (k : Nat) (w : Word) :
    (placeSlot l k w)[k]? = some w := by
  induction k generalizing l with
  | zero => cases l <;> rfl
  | succ k ih => cases l <;> simpa [placeSlot] using ih _

/-- Every other slot that existed keeps its word. -/
theorem placeSlot_getElem?_ne (l : List Word) (k j : Nat) (w : Word) (hj : j < l.length)
    (hne : j ≠ k) : (placeSlot l k w)[j]? = l[j]? := by
  induction l generalizing k j with
  | nil => simp at hj
  | cons u l ih =>
    cases k with
    | zero =>
      cases j with
      | zero => exact absurd rfl hne
      | succ j => rfl
    | succ k =>
      cases j with
      | zero => rfl
      | succ j => simpa [placeSlot] using ih k j (by simpa using hj) (by omega)

theorem alignDown_toNat (a : Word) : (alignDown a).toNat = 4 * (a.toNat / 4) := by
  have := a.isLt
  simp only [alignDown, wordIndex, BitVec.toNat_ofNat]
  omega

/-- A word-aligned pc stays where it is. -/
theorem alignDown_of_aligned (a : Word) (h : a.toNat % 4 = 0) : alignDown a = a := by
  apply BitVec.eq_of_toNat_eq
  rw [alignDown_toNat]
  omega

/-- After the host's load, the fetch at the pc answers the loaded word. -/
theorem State.fetch_loadAtPc (s : State) (w : Word) :
    (s.loadAtPc w).fetch (s.loadAtPc w).pc = .ok w := by
  have h1 : aligned (alignDown s.pc) = true := by
    rw [aligned_iff, alignDown_toNat]
    omega
  have h2 : wordIndex (alignDown s.pc) = wordIndex s.pc := by
    rw [wordIndex, alignDown_toNat, wordIndex]
    omega
  simp [State.fetch, h1, h2, placeSlot_getElem?]

end Sys2Proof.Machine
end

