-- ==== Sys2Proof/Laws/Register.lean ====
section
/-!
SUPPORT. The laws of the register file: what a read gives after a write, and that the 32 reads
determine the file.
-/
namespace Sys2Proof.Machine

@[simp] theorem State.readReg_zero (s : State) : s.readReg 0 = 0 := by simp [State.readReg]

@[simp] theorem State.writeReg_zero (s : State) (v : Word) : s.writeReg 0 v = s := by
  simp [State.writeReg]

/-- A read after a write, for every pair of registers. -/
theorem State.readReg_writeReg (s : State) (i r : Reg) (v : Word) :
    (s.writeReg i v).readReg r = if r = i ∧ i ≠ 0 then v else s.readReg r := by
  by_cases hi : i.val = 0
  · have : i = 0 := Fin.ext hi
    simp [this]
  · have hi0 : i ≠ 0 := fun h => hi (by simp [h])
    by_cases hr : r.val = 0
    · have : r = 0 := Fin.ext hr
      subst this
      simp [Ne.symm hi0]
    · by_cases h : r = i
      · subst h
        simp [State.readReg, State.writeReg, hr, hi0]
      · have hne : i.val - 1 ≠ r.val - 1 := by
          intro h'
          exact h (Fin.ext (by omega))
        simp [State.readReg, State.writeReg, hr, hi, h, hne]

/-- A read after the end of a register-writing instruction. -/
theorem State.readReg_retire (s : State) (rd r : Reg) (v : Word) :
    (s.retire rd v).readReg r = if r = rd ∧ rd ≠ 0 then v else s.readReg r := by
  rw [State.retire, State.advance_readReg, State.readReg_writeReg]

/-- Two states that read alike at every index have the same register file. -/
theorem State.x_eq_of_readReg (s t : State) (h : ∀ r, s.readReg r = t.readReg r) : s.x = t.x := by
  apply Vector.ext
  intro k hk
  have := h ⟨k + 1, by omega⟩
  simpa [State.readReg] using this

/-- After reset with `p`, register `k + 1` holds word `k` of `REG_RESET`. -/
theorem State.readReg_resetWith (p : Params) (k : Nat) (hk : k < 31) :
    (State.resetWith p).readReg ⟨k + 1, by omega⟩ = p.regReset[k] := by
  simp [State.readReg]

end Sys2Proof.Machine
end

