-- ==== Sys2Proof/Laws/Exec.lean ====
section
/-!
SUPPORT. What one instruction, and one step, can do: the inversion lemmas every claim about a next
state, a fault or a run starts from.
-/
namespace Sys2Proof.Machine

/-- The word a register-writing instruction computes from the state before it. -/
def Instr.resultIn (s : State) : Instr → Word
  | .and _ rs rt => s.readReg rs &&& s.readReg rt
  | .addi _ rs imm16 => s.readReg rs + immOperand imm16
  | .slt _ rs rt => sltResult (s.readReg rs) (s.readReg rt)
  | .lui _ imm16 => luiOperand imm16
  | .lw _ rs imm16 => s.cell (wordIndex (s.effAddr rs imm16))
  | .sw rt _ _ => s.readReg rt
  | .beq _ _ _ => 0

/-- Everything `exec` can do: retire a register, store a cell, move the pc, or fault on the data
address of a load or store. It never refuses. -/
theorem exec_cases (i : Instr) (s : State) :
    (∃ rd, i.dest = some rd ∧ exec i s = .next (s.retire rd (Instr.resultIn s i))) ∨
    (∃ rt rs imm16, i = .sw rt rs imm16 ∧ s.dataAddrOK (s.effAddr rs imm16) = true ∧
      exec i s = .next
        (s.storeCell (wordIndex (s.effAddr rs imm16)) (s.readReg rt)).advance) ∨
    (∃ rs rt imm16, i = .beq rs rt imm16 ∧ s.readReg rs = s.readReg rt ∧
      exec i s = .next (s.setPc (s.branchTarget imm16))) ∨
    (∃ rs rt imm16, i = .beq rs rt imm16 ∧ s.readReg rs ≠ s.readReg rt ∧
      exec i s = .next s.advance) ∨
    (∃ r rs imm16, (i = .lw r rs imm16 ∨ i = .sw r rs imm16) ∧
      s.dataAddrOK (s.effAddr rs imm16) = false ∧
      exec i s = .fault (.memoryAccess (s.effAddr rs imm16))) := by
  cases i with
  | and rd rs rt => exact .inl ⟨rd, rfl, rfl⟩
  | addi rd rs imm16 => exact .inl ⟨rd, rfl, rfl⟩
  | slt rd rs rt => exact .inl ⟨rd, rfl, rfl⟩
  | lui rd imm16 => exact .inl ⟨rd, rfl, rfl⟩
  | lw rd rs imm16 =>
    rcases s.memRead_cases (s.effAddr rs imm16) with ⟨h, hr⟩ | ⟨h, hr⟩
    · exact .inl ⟨rd, rfl, by simp [exec, execLw, hr, Instr.resultIn]⟩
    · exact .inr (.inr (.inr (.inr ⟨rd, rs, imm16, .inl rfl, h, by simp [exec, execLw, hr, raise]⟩)))
  | sw rt rs imm16 =>
    rcases s.memWrite_cases (s.effAddr rs imm16) (s.readReg rt) with ⟨h, hr⟩ | ⟨h, hr⟩
    · exact .inr (.inl ⟨rt, rs, imm16, rfl, h, by simp [exec, execSw, hr]⟩)
    · exact .inr (.inr (.inr (.inr ⟨rt, rs, imm16, .inr rfl, h, by simp [exec, execSw, hr, raise]⟩)))
  | beq rs rt imm16 =>
    by_cases h : s.readReg rs = s.readReg rt
    · exact .inr (.inr (.inl ⟨rs, rt, imm16, rfl, h, by simp [exec, execBeq, h]⟩))
    · exact .inr (.inr (.inr (.inl ⟨rs, rt, imm16, rfl, h, by simp [exec, execBeq, h]⟩)))

/-- A step answers a next state exactly when an instruction is fetched and answers it. -/
theorem step_next_iff (s t : State) :
    step s = .next t ↔ ∃ i, s.fetchDecode = .ok i ∧ exec i s = .next t := by
  unfold step
  cases s.fetchDecode <;> simp [raise]

/-- A step faults exactly when fetch or decode does, or the instruction fetched. -/
theorem step_fault_iff (s : State) (f : Fault) :
    step s = .fault f ↔ s.fetchDecode = .error f ∨
      ∃ i, s.fetchDecode = .ok i ∧ exec i s = .fault f := by
  unfold step
  cases s.fetchDecode <;> simp [raise]

/-- A step of an instruction that is fetched is that instruction. -/
theorem step_eq_exec (s : State) (i : Instr) (h : s.fetchDecode = .ok i) : step s = exec i s := by
  simp [step, h]

/-- The step after the host's load of a word runs the instruction the word decodes to. -/
theorem step_withFetchWord (s : State) (nbits w : Nat) (i : Instr)
    (h : decodeTableWord nbits w = some i) :
    step (s.withFetchWord nbits w) = exec i (s.withFetchWord nbits w) := by
  apply step_eq_exec
  rw [State.fetchDecode_ok_iff]
  refine ⟨_, State.fetch_loadAtPc s _, ?_⟩
  unfold decodeTableWord at h
  cases hd : decode (tableWord nbits w) with
  | instr j => rw [hd] at h; simpa using h
  | illegal => rw [hd] at h; simp at h

end Sys2Proof.Machine
end

