-- ==== Sys2Proof/Laws/WellFormed.lean ====
section
/-!
SUPPORT. Records and instructions: the record of an instruction is well formed and reads back as it.
-/
namespace Sys2Proof

@[simp] theorem regOf_val (r : Reg) : regOf r.val = some r := by simp [regOf]

@[simp] theorem immOf_toNat (v : Half) : immOf v.toNat = some v := by
  have := v.isLt
  simp [immOf, this]

@[simp] theorem regInRange_val (r : Reg) : regInRange r.val = true := by simp [regInRange]

@[simp] theorem immInRange_toNat (v : Half) : immInRange v.toNat = true := by
  have := v.isLt
  simp [immInRange, this]

@[simp] theorem Instr.toRecord_wellFormed (i : Instr) : i.toRecord.wellFormed = true := by
  cases i <;> simp [Instr.toRecord, Record.wellFormed]

@[simp] theorem Instr.toInstr_toRecord (i : Instr) : i.toRecord.toInstr = some i := by
  cases i <;> simp [Instr.toRecord, Record.toInstr]

end Sys2Proof
end

