-- ==== Sys2Proof/Laws/PerInstr.lean ====
section
/-!
SUPPORT. The per-instruction family EncodedRow: an instruction's word selects its own row of the
opcode map (spec 30_encoding.md R87 to R93), and its record is well formed (R81).
-/
namespace Sys2Proof.Laws.EncodedRow

/-- The word of an instruction selects the instruction's row, which is a row of the opcode map. -/
def Statement (i : Instr) : Prop :=
  i.row ∈ opcodeMap ∧ i.row.hits (encode i) = true ∧ i.wellFormed = true

theorem and (rd rs rt : Reg) : Statement (.and rd rs rt) := by
  refine ⟨by simp [Instr.row, opcodeMap], (rowAnd_hits _).2 ?_, Instr.toRecord_wellFormed _⟩
  simp only [encode, formatR_toNat, BitVec.toNat_ofNat]
  omega

theorem addi (rd rs : Reg) (imm16 : Half) : Statement (.addi rd rs imm16) := by
  refine ⟨by simp [Instr.row, opcodeMap], (rowAddi_hits _).2 ?_, Instr.toRecord_wellFormed _⟩
  simp only [encode, formatI_toNat, BitVec.toNat_ofNat]
  omega

theorem slt (rd rs rt : Reg) : Statement (.slt rd rs rt) := by
  refine ⟨by simp [Instr.row, opcodeMap], (rowSlt_hits _).2 ?_, Instr.toRecord_wellFormed _⟩
  simp only [encode, formatR_toNat, BitVec.toNat_ofNat]
  omega

theorem lui (rd : Reg) (imm16 : Half) : Statement (.lui rd imm16) := by
  refine ⟨by simp [Instr.row, opcodeMap], (rowLui_hits _).2 ?_, Instr.toRecord_wellFormed _⟩
  simp only [encode, formatI_toNat, BitVec.toNat_ofNat, Fin.val_zero]
  omega

theorem lw (rd rs : Reg) (imm16 : Half) : Statement (.lw rd rs imm16) := by
  refine ⟨by simp [Instr.row, opcodeMap], (rowLw_hits _).2 ?_, Instr.toRecord_wellFormed _⟩
  simp only [encode, formatI_toNat, BitVec.toNat_ofNat]
  omega

theorem sw (rt rs : Reg) (imm16 : Half) : Statement (.sw rt rs imm16) := by
  refine ⟨by simp [Instr.row, opcodeMap], (rowSw_hits _).2 ?_, Instr.toRecord_wellFormed _⟩
  simp only [encode, formatI_toNat, BitVec.toNat_ofNat]
  omega

theorem beq (rs rt : Reg) (imm16 : Half) : Statement (.beq rs rt imm16) := by
  refine ⟨by simp [Instr.row, opcodeMap], (rowBeq_hits _).2 ?_, Instr.toRecord_wellFormed _⟩
  simp only [encode, formatI_toNat, BitVec.toNat_ofNat]
  omega

end Sys2Proof.Laws.EncodedRow
end

