-- ==== Sys2Proof/Tests/Slice0.lean ====
section
/-!
SUPPORT. Tests on small states. Expected values are those of spec/95_test_vectors.md and of the worked
examples of 41_alu.md, 42_load_store.md and 43_branch.md; the witnesses show that the hypotheses of each
statement can be met.
-/
namespace Sys2Proof.Tests
open Sys2Proof.Machine

/-! ### Helpers -/

/-- The reset state of the vectors: `DMEM_WORDS` = 8, `ENTRY` = 0, registers zero, a program given. -/
def load (program : List Word) : State := State.resetWith { Params.standard with program := program }

/-- One instruction at address 0 and the registers it needs. -/
def at0 (w : Word) (regs : List (Reg × Word)) : State :=
  regs.foldl (fun s e => s.writeReg e.1 e.2) (load [w])

def nextOf (o : Host.Outcome State Fault Refusal) : Option State :=
  match o with
  | .next s => some s
  | .fault _ => none
  | .refused _ => none

def faultOf (o : Host.Outcome State Fault Refusal) : Option Fault :=
  match o with
  | .next _ => none
  | .fault f => some f
  | .refused _ => none

/-- The pc and one register after one step. -/
def regAfter (s : State) (r : Reg) : Option (Word × Word) :=
  (nextOf (step s)).map fun t => (t.pc, t.readReg r)

/-- The pc and one cell after one step. -/
def cellAfter (s : State) (j : Nat) : Option (Word × Word) :=
  (nextOf (step s)).map fun t => (t.pc, t.cell j)

/-! ### Well-formedness: each check refuses an ill-formed record (30_encoding.md R81) -/

theorem test_wf_and : Record.wellFormed (.and 31 31 31) = true ∧ Record.wellFormed (.and 32 0 0) = false ∧
    Record.wellFormed (.and 0 32 0) = false ∧ Record.wellFormed (.and 0 0 32) = false := by decide
theorem test_wf_addi : Record.wellFormed (.addi 31 31 65535) = true ∧
    Record.wellFormed (.addi 32 0 0) = false ∧ Record.wellFormed (.addi 0 32 0) = false ∧
    Record.wellFormed (.addi 0 0 65536) = false := by decide
theorem test_wf_slt : Record.wellFormed (.slt 31 31 31) = true ∧ Record.wellFormed (.slt 32 0 0) = false ∧
    Record.wellFormed (.slt 0 32 0) = false ∧ Record.wellFormed (.slt 0 0 32) = false := by decide
theorem test_wf_lui : Record.wellFormed (.lui 31 65535) = true ∧
    Record.wellFormed (.lui 32 0) = false ∧ Record.wellFormed (.lui 0 65536) = false := by decide
theorem test_wf_lw : Record.wellFormed (.lw 31 31 65535) = true ∧ Record.wellFormed (.lw 32 0 0) = false ∧
    Record.wellFormed (.lw 0 32 0) = false ∧ Record.wellFormed (.lw 0 0 65536) = false := by decide
theorem test_wf_sw : Record.wellFormed (.sw 31 31 65535) = true ∧ Record.wellFormed (.sw 32 0 0) = false ∧
    Record.wellFormed (.sw 0 32 0) = false ∧ Record.wellFormed (.sw 0 0 65536) = false := by decide
theorem test_wf_beq : Record.wellFormed (.beq 31 31 65535) = true ∧
    Record.wellFormed (.beq 32 0 0) = false ∧ Record.wellFormed (.beq 0 32 0) = false ∧
    Record.wellFormed (.beq 0 0 65536) = false := by decide
theorem test_record_refused : Record.toInstr (.and 0 32 0) = none ∧ Record.toInstr (.lui 0 65536) = none ∧
    Record.toInstr (.sw 9 12 0xFFF8) = some (.sw 9 12 0xFFF8#16) := by decide

/-! ### Decoding: words written bit by bit from the patterns of R87 to R93 -/

theorem test_decode_and :
    decode 0b00000001000010010001000000100100#32 = .instr (.and 2 8 9) := by decide
theorem test_decode_addi :
    decode 0b00100011110111111000000000000000#32 = .instr (.addi 31 30 0x8000#16) := by decide
theorem test_decode_slt :
    decode 0b00000000001000101111100000101010#32 = .instr (.slt 31 1 2) := by decide
theorem test_decode_lui :
    decode 0b00111100000011110000111100111001#32 = .instr (.lui 15 0x0F39#16) := by decide
theorem test_decode_lw :
    decode 0b10001101001010001111111111111100#32 = .instr (.lw 8 9 0xFFFC#16) := by decide
theorem test_decode_sw :
    decode 0b10101101100010011111111111111000#32 = .instr (.sw 9 12 0xFFF8#16) := by decide
theorem test_decode_beq :
    decode 0b00010001000010010000000000000001#32 = .instr (.beq 8 9 0x0001#16) := by decide

/-- The illegal words of part 2.1. -/
theorem test_decode_illegal :
    [0x00000000#32, 0x01091064#32, 0x010917EA#32, 0x3C2E0008#32, 0x01091020#32, 0x01091025#32,
      0x24080001#32, 0x1400FFFF#32, 0x08000000#32, 0x34080001#32, 0x80080000#32,
      0xFFFFFFFF#32].all (fun w => decode w = .illegal) = true := by decide

/-- The words of part 2.1, encoded from their records. -/
theorem test_encode :
    encode (.and 2 8 9) = 0x01091024#32 ∧ encode (.slt 10 9 8) = 0x0128502A#32 ∧
    encode (.addi 1 2 0x7FFF#16) = 0x20417FFF#32 ∧ encode (.lui 14 8#16) = 0x3C0E0008#32 ∧
    encode (.lw 13 0 8#16) = 0x8C0D0008#32 ∧ encode (.sw 8 0 0#16) = 0xAC080000#32 ∧
    encode (.beq 0 0 0xFFFC#16) = 0x1000FFFC#32 := by decide

theorem test_decodeTableWord : decodeTableWord 32 0x2000FFFF = some (.addi 0 0 0xFFFF#16) ∧
    decodeTableWord 32 0x00000000 = none := by decide

/-! ### Instructions -/

/-- 41_alu.md R141, example. -/
theorem test_and : regAfter (at0 0x01091024 [(8, 35), (9, 34)]) 2 = some (4, 34) := by decide
/-- part 2.2, third row. -/
theorem test_and_disjoint :
    regAfter (at0 0x01091024 [(8, 0xF0F0F0F0), (9, 0x0F0F0F0F)]) 2 = some (4, 0) := by decide

/-- S2: 2^31 - 1 plus 1 wraps. -/
theorem test_addi_wraps :
    regAfter (at0 0x21290001 [(9, 0x7FFFFFFF)]) 9 = some (4, 0x80000000) := by decide
/-- part 2.3: 0x00010000 plus -32768. -/
theorem test_addi_negative :
    regAfter (at0 0x23DF8000 [(30, 0x00010000)]) 31 = some (4, 0x00008000) := by decide

/-- 41_alu.md R143, example: -5 is less than 0. -/
theorem test_slt_signed : regAfter (at0 0x0180682A [(12, 0xFFFFFFFB)]) 13 = some (4, 1) := by decide
/-- part 2.4: the greatest is not less than the least. -/
theorem test_slt_extremes :
    regAfter (at0 0x0022F82A [(1, 0x7FFFFFFF), (2, 0x80000000)]) 31 = some (4, 0) := by decide

/-- S4b with C2: the exact shift. -/
theorem test_lui : regAfter (at0 0x3C0F0F39 []) 15 = some (4, 255393792) := by decide
/-- part 2.5: the old content plays no part. -/
theorem test_lui_clears_low : regAfter (at0 0x3C0E0008 [(14, 0xFFFFFFFF)]) 14 = some (4, 0x00080000) := by
  decide

/-- part 2.6: the base is also the destination, and the address uses its old value. -/
theorem test_lw_base_is_dest :
    regAfter ((at0 0x8D080000 [(8, 8)]).storeCell 2 0x14) 8 = some (4, 0x14) := by decide
/-- part 2.6 and D14: a bad address faults though the destination is register 0. -/
theorem test_lw_zero_misaligned :
    faultOf (step (at0 0x8C000002 [])) = some (.memoryAccess 2) := by decide

/-- 42_load_store.md R162, example. -/
theorem test_sw : cellAfter (at0 0xAD89FFF8 [(12, 16), (9, 0x7FFFFFFF)]) 2 = some (4, 0x7FFFFFFF) := by
  decide
/-- part 2.6: clearing a cell removes its entry. -/
theorem test_sw_zero :
    (nextOf (step ((at0 0xAC00000C []).storeCell 3 0xDEADBEEF))).map (·.dmem) = some [] := by decide

/-- 43_branch.md R180, example: at 20, offset -4, to 8. -/
theorem test_beq_taken :
    (nextOf (exec (.beq 0 0 0xFFFC#16) ((load []).setPc 20))).map (·.pc) = some 8 := by decide
/-- part 2.7: all 32 bits are compared. -/
theorem test_beq_not_taken :
    (nextOf (step (at0 0x11090001 [(8, 1), (9, 0x80000001)]))).map (·.pc) = some 4 := by decide

/-! ### Addresses (part 2.6, `DMEM_WORDS` = 8) and branch targets (part 2.7) -/

theorem test_effAddr_wraps : (at0 0 [(1, 0xFFFFFFFC)]).effAddr 1 12#16 = 8 := by decide
theorem test_addr_last : State.reset.dataAddrOK 0x1C = true ∧ State.reset.dataAddrOK 0x20 = false ∧
    State.reset.dataAddrOK 2 = false ∧ State.reset.dataAddrOK 0xFFFFFFFC = false := by decide
theorem test_target_wraps : ((load []).setPc 0x100).branchTarget 0x8000#16 = 0xFFFE0104 ∧
    ((load []).setPc 0xFFFFFFFC).branchTarget 0#16 = 0 ∧
    ((load []).setPc 0x1000).branchTarget 0x7FFF#16 = 0x21000 := by decide

/-! ### Faults (part 2.8), reset and the host -/

theorem test_fault_end_of_program : faultOf (step ((load [0x24, 0x24, 0x24]).setPc 12)) =
    some (.programCounterOutOfRange 12) := by decide
theorem test_fault_misaligned_pc : faultOf (step ((load [0x24, 0x24, 0x24]).setPc 2)) =
    some (.programCounterOutOfRange 2) := by decide
theorem test_fault_illegal : faultOf (step ((load [0x24, 0]).setPc 4)) =
    some (.illegalInstruction 4 0) := by decide
/-- P5, first program: the fault and the state before it. -/
theorem test_run_fault : run 9 (load [0x20080006, 0xAD080000, 0x1000FFFF]) =
    .faulted (.memoryAccess 6) (((load [0x20080006, 0xAD080000, 0x1000FFFF]).writeReg 8 6).setPc 4) := by
  decide
theorem test_reset_empty_program :
    faultOf (step State.reset) = some (.programCounterOutOfRange 0) := by decide
theorem test_snapshots : (State.reset.snapshotRegisters = Vector.replicate 32 0) ∧
    (State.reset.storeCell 2 7).snapshotMemory = [0, 0, 7, 0, 0, 0, 0, 0] := by decide
theorem test_withFetchWord :
    regAfter (State.reset.withFetchWord 32 0x20080023) 8 = some (4, 35) := by decide
theorem test_regOfName : regOfName "$t3" = some 11 ∧ regOfName "$31" = some 31 ∧
    regOfName "$v0" = some 2 ∧ regOfName "$t8" = none := by decide
/-- 30_encoding.md R107: slot 4 to slot 6 is +1, slot 6 to itself is -1. -/
theorem test_branchField : branchField 4 6 = some 1#16 ∧ branchField 6 6 = some 0xFFFF#16 ∧
    branchField 0 32769 = none := by decide
theorem test_literals : signedField (-32769) = none ∧ signedField (-1) = some 0xFFFF#16 ∧
    upperField 40000 = some 40000#16 ∧ upperField (-1) = none := by decide

/-! ### Witnesses: concrete states and operands that meet the hypotheses of the statements -/

/-- A store of register 8 (5) to cell 1, then a load of cell 1, then a self-branch. -/
def storeProgram : State := (load [0xAC080004, 0x8C090004, 0x1000FFFF]).writeReg 8 5

/-- `storeProgram` after its store. -/
def stored : State := ((storeProgram.storeCell 1 5).setPc 4)

/-- `storeProgram` at its self-branch. -/
def ended : State := (((storeProgram.storeCell 1 5).writeReg 9 5).setPc 8)

/-- RegisterWriteReplacesOrIsDiscarded: registers at both ends of the range, destinations of 0 with
a good load address. -/
theorem witness_discard : (1 : Reg) ≠ 0 ∧ (31 : Reg) ≠ 0 ∧ (Instr.and 0 8 9).dest = some 0 ∧
    (Instr.lw 0 0 4#16).dest = some 0 ∧ State.reset.dataAddrOK (State.reset.effAddr 0 4#16) = true := by
  decide
/-- InstructionsReadAndWriteOnlyTheirRegisters: two states that differ in a register not read. -/
theorem witness_sources : State.reset ≠ State.reset.writeReg 7 1 ∧
    (State.reset.writeReg 7 1).pc = State.reset.pc ∧ (State.reset.writeReg 7 1).dmem = State.reset.dmem ∧
    (State.reset.writeReg 7 1).params = State.reset.params ∧
    ∀ r ∈ (Instr.sw 8 9 0#16).sources, State.reset.readReg r = (State.reset.writeReg 7 1).readReg r := by
  decide
/-- DataAddressCheck, MemReadAnswersTheCell, MemWriteReplacesOneCell: the last good address, the
first bad one, a misaligned one, a negative one. -/
theorem witness_addresses : Memory.wf State.reset.dmem ∧ State.reset.dataAddrOK 28 = true ∧
    State.reset.dataAddrOK 32 = false ∧ State.reset.dataAddrOK 30 = false ∧
    (0x80000000 : Word).toInt < 0 ∧ State.reset.params.dmemWords ≤ 2 ^ 29 := by decide
/-- FetchAnswersTheSlot: the last slot, the address after it, the empty program. -/
theorem witness_fetch : 8 / 4 < storeProgram.params.program.length ∧
    ¬12 / 4 < storeProgram.params.program.length ∧ State.reset.params.program = [] := by decide
/-- The statements about a step that answers a next state, or about a cell it changes:
StoresNeverReachInstructionMemory, OnlyStoresChangeCells, OneEffectPerStep, EveryStepPreserves,
InvariantKeptByEveryStep, ZeroRegisterReadsZero. -/
theorem witness_step : step storeProgram = .next stored := rfl
/-- EveryStepPreserves, OneEffectPerStep: a step of each of the other two kinds. -/
theorem witness_step_register : step stored = .next ended := rfl
theorem witness_step_branch : step ended = .next ended := rfl
theorem witness_step_inv : storeProgram.Inv ∧ Memory.wf storeProgram.dmem ∧
    stored.cell 1 ≠ storeProgram.cell 1 := by decide
/-- LoadReturnsLatestStore: the store, one step after it that stores nothing, the same address. -/
theorem witness_latest_store : storeProgram.fetchDecode = .ok (.sw 8 0 4#16) ∧
    stored.fetchDecode = .ok (.lw 9 0 4#16) := ⟨rfl, rfl⟩
theorem witness_latest_run : run 1 stored = .done ended ∧
    ended.effAddr 0 4#16 = storeProgram.effAddr 0 4#16 := by decide
theorem witness_latest_no_store (k : Nat) (m : State) (hk : k < 1) (h : run k stored = .done m) (rt rs : Reg)
    (imm16 : Half) (hf : m.fetchDecode = .ok (.sw rt rs imm16)) :
    m.effAddr rs imm16 ≠ storeProgram.effAddr 0 4#16 := by
  obtain rfl : k = 0 := by omega
  obtain rfl : stored = m := by simpa [run] using h
  rw [show stored.fetchDecode = .ok (.lw 9 0 4#16) from rfl] at hf
  simp at hf
/-- DecodeInvertsEncode, EncodeInvertsDecode: a record at the ends of its ranges, a legal word. -/
theorem witness_record : Record.wellFormed (.lw 31 0 65535) = true ∧
    decode 0x8C1FFFFF#32 = .instr (.lw 31 0 0xFFFF#16) := by decide
/-- OpcodeRowsAreExclusive: a word that selects a row. -/
theorem witness_row : rowLui ∈ opcodeMap ∧ rowLui.hits 0x3C0E0008 = true := by decide
/-- LwLoadsTheCellOrFaults, SwStoresTheCellOrFaults: the last cell, and the address after it. -/
theorem witness_ea :
    (State.reset.readReg 0 + sext32 28#16).extractLsb' 0 2 = 0#2 ∧
    (State.reset.readReg 0 + sext32 28#16).toNat / 4 < State.reset.params.dmemWords ∧
    ¬(State.reset.readReg 0 + sext32 32#16).toNat / 4 < State.reset.params.dmemWords ∧
    Memory.wf State.reset.dmem := by decide
/-- BeqRedirectsOrFallsThrough, BranchIdioms: equal and different operands, less and not less. -/
theorem witness_operands : stored.readReg 8 = stored.readReg 8 ∧ stored.readReg 8 ≠ stored.readReg 9 ∧
    (stored.readReg 9).toInt < (stored.readReg 8).toInt ∧
    ¬(stored.readReg 8).toInt < (stored.readReg 9).toInt := by decide
/-- TakenBranchHasNoDelaySlot, SelfBranchRepeats, FixedPointsAreSelfBranches. -/
theorem witness_self_branch : ended.fetchDecode = .ok (.beq 0 0 0xFFFF#16) := rfl
theorem witness_fixed_point : FixedPoint ended := rfl
theorem witness_no_fixed_point : ¬FixedPoint storeProgram := by
  intro h
  have h' : nextOf (step storeProgram) = some storeProgram := by rw [h]; rfl
  exact absurd h' (by decide)
/-- LuiThenAddiBuildsAnyConstant: a destination other than 0. -/
theorem witness_constant : (8 : Reg) ≠ 0 := by decide
/-- AluInstructionsAlwaysComplete: one of the four, fetched. -/
theorem witness_alu : (load [0x01091024]).fetchDecode = .ok (.and 2 8 9) := rfl
/-- StepRunsTheDecodedInstruction: a word fetched at the pc that decodes. -/
theorem witness_fetched : storeProgram.fetch storeProgram.pc = .ok 0xAC080004#32 := rfl
theorem witness_decoded : decode 0xAC080004#32 = .instr (.sw 8 0 4#16) := by decide
/-- InvariantHoldsAtReset, ReachableStatesMeetTheInvariant, ResetGivesEveryPieceItsValue: admissible
parameters, and a state three steps from reset. -/
theorem witness_reachable : Params.Admissible storeProgram.params ∧
    run 3 (State.resetWith storeProgram.params) =
      .done (((State.resetWith storeProgram.params).setPc 8)) := by decide
/-- ProgramCounterFaultExactly, FaultIsSticky, FaultReportNamesTheAddress. -/
theorem witness_pc_fault : step State.reset = .fault (.programCounterOutOfRange 0) := rfl
/-- MemoryFaultExactly. -/
theorem witness_memory_fault : step (load [0x8C090020]) = .fault (.memoryAccess 0x20) := rfl
/-- IllegalInstructionFaultExactly. -/
theorem witness_illegal_fault : step (load [0x00000000]) = .fault (.illegalInstruction 0 0) := rfl
/-- HostResetForgetsTheState: two different states with the same parameters, and a run from reset. -/
theorem witness_host_reset : stored ≠ storeProgram ∧ stored.params = storeProgram.params ∧
    run 0 (State.resetWith stored.params) = .done (State.resetWith stored.params) := by decide
/-- RunIsRepeatedStepping: a run that goes on, and one that faults. -/
theorem witness_run : run 2 storeProgram = .done ended ∧
    run 1 State.reset = .faulted (.programCounterOutOfRange 0) State.reset := by decide
/-- NormalEndIsStableAndUnique. -/
theorem witness_normal_end :
    EndsNormally storeProgram.params ((State.resetWith storeProgram.params).setPc 8) :=
  ⟨⟨3, by decide⟩, rfl⟩
/-- SnapshotsShowTheState: the last cell of the snapshot. -/
theorem witness_snapshot : 7 < State.reset.params.dmemWords := by decide
/-- ProgramOfRecordsRunsThem: a program given as records, the pc at its slot 1. -/
theorem witness_records : (load [0x01091024, 0x2000FFFF]).params.program =
      programOfRecords [.and 2 8 9, .addi 0 0 0xFFFF#16] ∧
    ((load [0x01091024, 0x2000FFFF]).setPc 4).pc.toNat = 4 * 1 := by decide
/-- BranchToALabelReachesIt: from slot 5 back to slot 2. -/
theorem witness_label : branchField 5 2 = some 0xFFFC#16 ∧ ((load []).setPc 20).pc.toNat = 4 * 5 ∧
    2 < 2 ^ 30 ∧ (load []).readReg 0 = (load []).readReg 0 := by decide

end Sys2Proof.Tests
end

/-! ### Sign and zero extension of the 16-bit field (00_scope.md R9, R99) -/

namespace Sys2Proof.Machine

/-- R9: below bit 16 the field, above it 16 copies of the field's bit 15. -/
theorem sext32_getLsbD (v : Half) (k : Nat) :
    (sext32 v).getLsbD k = if k < 16 then v.getLsbD k else decide (k < 32) && v.getLsbD 15 := by
  rw [sext32, BitVec.getLsbD_signExtend, BitVec.msb_eq_getLsbD_last]
  split
  case isTrue hk =>
    have : k < 32 := by omega
    simp [this]
  case isFalse => rfl

/-- R9: below bit 16 the field, above it zeros. -/
theorem zext32_getLsbD (v : Half) (k : Nat) :
    (zext32 v).getLsbD k = if k < 16 then v.getLsbD k else false := by
  rw [zext32, BitVec.zeroExtend_eq_setWidth, BitVec.getLsbD_setWidth]
  split
  case isTrue hk =>
    have : k < 32 := by omega
    simp [this]
  case isFalse hk => rw [BitVec.getLsbD_of_ge v k (by omega), Bool.and_false]

theorem le_sext32_toInt (v : Half) : -32768 ≤ (sext32 v).toInt := by
  rw [sext32_toInt]
  exact BitVec.le_toInt v

theorem sext32_toInt_le (v : Half) : (sext32 v).toInt ≤ 32767 := by
  rw [sext32_toInt]
  exact Int.le_of_lt_add_one (BitVec.toInt_lt (x := v))

/-- Settles O4, from the bits of each extension and the signed reading of `sext32`. -/
theorem immediatesExtendAsStated : Obligations.ImmediatesExtendAsStated := fun v =>
  ⟨sext32_getLsbD v, zext32_getLsbD v, rfl, sext32_toInt v, le_sext32_toInt v, sext32_toInt_le v⟩

end Sys2Proof.Machine

/-! ### What `exec` answers, case by case, for the claims about its next state -/

namespace Sys2Proof.Machine
variable {s s' t t' : State} {i : Instr} {rd rs rt : Reg} {imm16 : Half}

/-- R161: a load from a good address retires the addressed cell, from a bad one it faults. -/
theorem exec_lw (s : State) (rd rs : Reg) (imm16 : Half) :
    exec (.lw rd rs imm16) s =
      if s.dataAddrOK (s.effAddr rs imm16) then
        .next (s.retire rd (s.cell (wordIndex (s.effAddr rs imm16))))
      else .fault (.memoryAccess (s.effAddr rs imm16)) := by
  rcases s.memRead_cases (s.effAddr rs imm16) with ⟨hok, hr⟩ | ⟨hok, hr⟩ <;>
    simp [exec, execLw, hok, hr, raise]

/-- R162: a store to a good address replaces the addressed cell, to a bad one it faults. -/
theorem exec_sw (s : State) (rt rs : Reg) (imm16 : Half) :
    exec (.sw rt rs imm16) s =
      if s.dataAddrOK (s.effAddr rs imm16) then
        .next (s.storeCell (wordIndex (s.effAddr rs imm16)) (s.readReg rt)).advance
      else .fault (.memoryAccess (s.effAddr rs imm16)) := by
  rcases s.memWrite_cases (s.effAddr rs imm16) (s.readReg rt) with ⟨hok, hw⟩ | ⟨hok, hw⟩ <;>
    simp [exec, execSw, hok, hw, raise]

/-- R180: a branch moves the pc and does nothing else. -/
theorem exec_beq (s : State) (rs rt : Reg) (imm16 : Half) :
    exec (.beq rs rt imm16) s = .next (s.setPc
      (if s.readReg rs = s.readReg rt then s.branchTarget imm16 else s.nextPc)) := by
  by_cases h : s.readReg rs = s.readReg rt <;> simp [exec, execBeq, h, State.advance]

/-- An instruction with a destination retires its result, a load when its address is good. -/
theorem exec_of_dest (hd : i.dest = some rd)
    (hok : ∀ rs imm16, i = .lw rd rs imm16 → s.dataAddrOK (s.effAddr rs imm16) = true) :
    exec i s = .next (s.retire rd (Instr.resultIn s i)) := by
  rcases exec_cases i s with ⟨rd', hd', he⟩ | ⟨_, _, _, rfl, _⟩ | ⟨_, _, _, rfl, _⟩ |
    ⟨_, _, _, rfl, _⟩ | ⟨r, rs, imm16, rfl | rfl, hbad, _⟩
  · obtain rfl : rd' = rd := Option.some.inj (hd'.symm.trans hd)
    exact he
  · cases hd
  · cases hd
  · cases hd
  · cases hd
    exact absurd (hok rs imm16 rfl) (by simp [hbad])
  · cases hd

/-- The three forms of a completed instruction's next state (40_execution_loop.md R126). -/
theorem exec_next_cases (h : exec i s = .next t) :
    (∃ rd, i.dest = some rd ∧ t = s.retire rd (Instr.resultIn s i)) ∨
    (∃ rt rs imm16, i = .sw rt rs imm16 ∧ s.dataAddrOK (s.effAddr rs imm16) = true ∧
      t = (s.storeCell (wordIndex (s.effAddr rs imm16)) (s.readReg rt)).advance) ∨
    (∃ rs rt imm16, i = .beq rs rt imm16 ∧ t = s.setPc
      (if s.readReg rs = s.readReg rt then s.branchTarget imm16 else s.nextPc)) := by
  rcases exec_cases i s with ⟨rd, hd, he⟩ | ⟨rt, rs, imm16, hi, hok, he⟩ |
    ⟨rs, rt, imm16, hi, heq, he⟩ | ⟨rs, rt, imm16, hi, hne, he⟩ | ⟨_, _, _, _, _, he⟩ <;>
    rw [he] at h <;> cases h
  · exact .inl ⟨rd, hd, rfl⟩
  · exact .inr (.inl ⟨rt, rs, imm16, hi, hok, rfl⟩)
  · exact .inr (.inr ⟨rs, rt, imm16, hi, by rw [if_pos heq]⟩)
  · exact .inr (.inr ⟨rs, rt, imm16, hi, by rw [if_neg hne]; rfl⟩)

/-! ### The frames of the state's updates -/

/-- R22: the write of a retiring instruction to register 0 is discarded, the pc still advances. -/
@[simp] theorem State.retire_zero (s : State) (v : Word) : s.retire 0 v = s.advance := by
  rw [State.retire, State.writeReg_zero]

theorem State.retire_writesRegister (s : State) (rd : Reg) (v : Word) :
    WritesRegister s (s.retire rd v) rd v where
  dest := by
    by_cases h : rd = 0
    · subst h; simp
    · simp [State.readReg_retire, h]
  others r hr := by simp [State.readReg_retire, hr]
  cells := s.retire_cell rd v
  pc := s.retire_pc rd v
  params := s.retire_params rd v

/-! ### Every step keeps the state invariant (10_state.md R27, R31) -/

theorem add_toNat_mod_four {a b : Word} (ha : a.toNat % 4 = 0) (hb : b.toNat % 4 = 0) :
    (a + b).toNat % 4 = 0 := by
  rw [BitVec.toNat_add]
  omega

theorem State.nextPc_mod_four (h : s.pc.toNat % 4 = 0) : s.nextPc.toNat % 4 = 0 :=
  add_toNat_mod_four h (by decide)

theorem State.branchTarget_mod_four (h : s.pc.toNat % 4 = 0) (imm16 : Half) :
    (s.branchTarget imm16).toNat % 4 = 0 :=
  add_toNat_mod_four (State.nextPc_mod_four h) (branchOperand_mod imm16)

theorem State.Inv.pc_mod_four (h : s.Inv) : s.pc.toNat % 4 = 0 :=
  let ⟨_, hpc, _⟩ := h
  hpc

theorem State.Inv.setPc (h : s.Inv) {a : Word} (ha : a.toNat % 4 = 0) : (s.setPc a).Inv :=
  let ⟨hparams, _, hmem⟩ := h
  ⟨hparams, ha, hmem⟩

theorem State.Inv.advance (h : s.Inv) : s.advance.Inv :=
  h.setPc (State.nextPc_mod_four h.pc_mod_four)

theorem State.Inv.writeReg (h : s.Inv) (rd : Reg) (v : Word) : (s.writeReg rd v).Inv := by
  simpa [State.Inv] using h

theorem State.Inv.retire (h : s.Inv) (rd : Reg) (v : Word) : (s.retire rd v).Inv :=
  (h.writeReg rd v).advance

/-- A store to a cell that exists keeps the canonical form and lists no cell that does not. -/
theorem State.Inv.storeCell (h : s.Inv) {j : Nat} (hj : j < s.params.dmemWords) (v : Word) :
    (s.storeCell j v).Inv := by
  obtain ⟨hparams, hpc, hwf, hlisted⟩ := h
  refine ⟨hparams, hpc, Memory.wf_store s.dmem j v hwf, fun e he => ?_⟩
  rcases Memory.mem_store he with rfl | he
  · exact hj
  · exact hlisted e he

theorem exec_keeps_inv (h : s.Inv) (he : exec i s = .next t) : t.Inv := by
  rcases exec_next_cases he with ⟨rd, _, rfl⟩ | ⟨rt, rs, imm16, _, hok, rfl⟩ |
    ⟨rs, rt, imm16, _, rfl⟩
  · exact h.retire rd _
  · obtain ⟨_, hcell⟩ := (s.dataAddrOK_iff _).1 hok
    exact (h.storeCell hcell _).advance
  · refine h.setPc ?_
    split
    · exact State.branchTarget_mod_four h.pc_mod_four imm16
    · exact State.nextPc_mod_four h.pc_mod_four

/-- Settles O34: the instruction a step executes keeps the invariant, by the three forms of its next
state. -/
theorem invariantKeptByEveryStep : Obligations.InvariantKeptByEveryStep := by
  intro s t hinv hstep
  obtain ⟨i, _, he⟩ := (step_next_iff s t).1 hstep
  exact exec_keeps_inv hinv he

/-! ### Register writes, and destinations of 0 (10_state.md R21, R22) -/

theorem State.readReg_writeReg_same (s : State) (hrd : rd ≠ 0) (v : Word) :
    (s.writeReg rd v).readReg rd = v := by
  rw [State.readReg_writeReg, if_pos ⟨rfl, hrd⟩]

theorem State.readReg_writeReg_ne (s : State) {r : Reg} (hr : r ≠ rd) (v : Word) :
    (s.writeReg rd v).readReg r = s.readReg r := by
  rw [State.readReg_writeReg, if_neg fun h => hr h.1]

/-- Settles O2: by the laws of a read after a write; a destination of 0 retires to nothing but the
advance of the pc. -/
theorem registerWriteReplacesOrIsDiscarded : Obligations.RegisterWriteReplacesOrIsDiscarded := by
  intro s v
  refine ⟨fun i hi => ?_, s.writeReg_zero v, fun i hd hok => ?_⟩
  · exact ⟨s.readReg_writeReg_same hi v, fun r hr => s.readReg_writeReg_ne hr v,
      s.writeReg_cell i v, s.writeReg_pc i v, s.writeReg_params i v⟩
  · rw [exec_of_dest hd hok, State.retire_zero]
    rfl

/-- Settles O1: register 0 is not stored and reads 0 whatever the state, the next ones included. -/
theorem zeroRegisterReadsZero : Obligations.ZeroRegisterReadsZero := fun s =>
  ⟨s.readReg_zero, fun _ t _ => t.readReg_zero, fun t _ => t.readReg_zero⟩

/-! ### An instruction reads its sources and writes its destination only (10_state.md R23) -/

/-- The premise of R23's noninterference: the two states differ at most in registers that `i` does
not read. -/
structure AgreeOnReads (i : Instr) (s s' : State) : Prop where
  pc : s.pc = s'.pc
  dmem : s.dmem = s'.dmem
  params : s.params = s'.params
  sources : ∀ r ∈ i.sources, s.readReg r = s'.readReg r

/-- Its conclusion: `i` completes in both states with the same pc, cells and destination and with
every other register as it was, or faults alike. -/
def ActsAlike (i : Instr) (s s' : State) : Prop :=
  (∃ t t', exec i s = .next t ∧ exec i s' = .next t' ∧ t.pc = t'.pc ∧
    (∀ j, t.cell j = t'.cell j) ∧ (∀ rd, i.dest = some rd → t.readReg rd = t'.readReg rd) ∧
    (∀ r, i.dest ≠ some r → t.readReg r = s.readReg r ∧ t'.readReg r = s'.readReg r)) ∨
  (∃ f, exec i s = .fault f ∧ exec i s' = .fault f)

namespace AgreeOnReads

theorem cell (h : AgreeOnReads i s s') (j : Nat) : s.cell j = s'.cell j := by
  rw [State.cell, State.cell, h.dmem]

theorem effAddr (h : AgreeOnReads i s s') (hrs : rs ∈ i.sources) (imm16 : Half) :
    s.effAddr rs imm16 = s'.effAddr rs imm16 := by
  rw [State.effAddr, State.effAddr, h.sources rs hrs]

theorem dataAddrOK_effAddr (h : AgreeOnReads i s s') (hrs : rs ∈ i.sources) (imm16 : Half) :
    s.dataAddrOK (s.effAddr rs imm16) = s'.dataAddrOK (s'.effAddr rs imm16) := by
  rw [h.effAddr hrs, State.dataAddrOK, State.dataAddrOK, h.params]

/-- The computed word depends on the source registers and the cells only. -/
theorem resultIn (h : AgreeOnReads i s s') : Instr.resultIn s i = Instr.resultIn s' i := by
  have hsrc := h.sources
  cases i with
  | and rd rs rt => simp [Instr.resultIn, hsrc rs (by simp [Instr.sources]),
      hsrc rt (by simp [Instr.sources])]
  | addi rd rs imm16 => simp [Instr.resultIn, hsrc rs (by simp [Instr.sources])]
  | slt rd rs rt => simp [Instr.resultIn, hsrc rs (by simp [Instr.sources]),
      hsrc rt (by simp [Instr.sources])]
  | lui rd imm16 => rfl
  | lw rd rs imm16 => simp [Instr.resultIn, h.cell, h.effAddr (rs := rs) (by simp [Instr.sources])]
  | sw rt rs imm16 => exact hsrc rt (by simp [Instr.sources])
  | beq rs rt imm16 => rfl

/-- Both executions retire their result. -/
theorem actsAlike_of_retire (h : AgreeOnReads i s s') (hd : i.dest = some rd)
    (he : exec i s = .next (s.retire rd (Instr.resultIn s i)))
    (he' : exec i s' = .next (s'.retire rd (Instr.resultIn s' i))) : ActsAlike i s s' := by
  have hw := s.retire_writesRegister rd (Instr.resultIn s i)
  have hw' := s'.retire_writesRegister rd (Instr.resultIn s' i)
  refine .inl ⟨_, _, he, he', by simp [h.pc], fun j => by simp [h.cell], fun r hr => ?_,
    fun r hr => ?_⟩
  · obtain rfl : rd = r := Option.some.inj (hd.symm.trans hr)
    rw [hw.dest, hw'.dest, h.resultIn]
  · have hne : r ≠ rd := fun hrd => hr (hrd ▸ hd)
    exact ⟨hw.others r hne, hw'.others r hne⟩

theorem actsAlike_lw (h : AgreeOnReads (.lw rd rs imm16) s s') :
    ActsAlike (.lw rd rs imm16) s s' := by
  have hrs : rs ∈ (Instr.lw rd rs imm16).sources := by simp [Instr.sources]
  have hok := h.dataAddrOK_effAddr hrs imm16
  by_cases hgood : s'.dataAddrOK (s'.effAddr rs imm16) = true
  · exact h.actsAlike_of_retire rfl ((exec_lw s rd rs imm16).trans (if_pos (hok.trans hgood)))
      ((exec_lw s' rd rs imm16).trans (if_pos hgood))
  · refine .inr ⟨.memoryAccess (s.effAddr rs imm16), ?_, ?_⟩
    · rw [exec_lw, hok, if_neg hgood]
    · rw [exec_lw, if_neg hgood, h.effAddr hrs]

theorem actsAlike_sw (h : AgreeOnReads (.sw rt rs imm16) s s') :
    ActsAlike (.sw rt rs imm16) s s' := by
  have hrs : rs ∈ (Instr.sw rt rs imm16).sources := by simp [Instr.sources]
  have hrt : s.readReg rt = s'.readReg rt := h.sources rt (by simp [Instr.sources])
  have hok := h.dataAddrOK_effAddr hrs imm16
  by_cases hgood : s'.dataAddrOK (s'.effAddr rs imm16) = true
  · refine .inl ⟨_, _, (exec_sw s rt rs imm16).trans (if_pos (hok.trans hgood)),
      (exec_sw s' rt rs imm16).trans (if_pos hgood), by simp [h.pc], fun j => ?_,
      (fun _ hd => nomatch hd), fun r _ => ⟨rfl, rfl⟩⟩
    simp [State.cell, h.dmem, hrt, h.effAddr hrs]
  · refine .inr ⟨.memoryAccess (s.effAddr rs imm16), ?_, ?_⟩
    · rw [exec_sw, hok, if_neg hgood]
    · rw [exec_sw, if_neg hgood, h.effAddr hrs]

theorem actsAlike_beq (h : AgreeOnReads (.beq rs rt imm16) s s') :
    ActsAlike (.beq rs rt imm16) s s' := by
  have hrs := h.sources rs (by simp [Instr.sources])
  have hrt := h.sources rt (by simp [Instr.sources])
  refine .inl ⟨_, _, exec_beq s rs rt imm16, exec_beq s' rs rt imm16, ?_, h.cell,
    (fun _ hd => nomatch hd), fun r _ => ⟨rfl, rfl⟩⟩
  simp [hrs, hrt, State.branchTarget, State.nextPc, h.pc]

theorem actsAlike (h : AgreeOnReads i s s') : ActsAlike i s s' := by
  cases i with
  | and rd rs rt => exact h.actsAlike_of_retire rfl rfl rfl
  | addi rd rs imm16 => exact h.actsAlike_of_retire rfl rfl rfl
  | slt rd rs rt => exact h.actsAlike_of_retire rfl rfl rfl
  | lui rd imm16 => exact h.actsAlike_of_retire rfl rfl rfl
  | lw rd rs imm16 => exact h.actsAlike_lw
  | sw rt rs imm16 => exact h.actsAlike_sw
  | beq rs rt imm16 => exact h.actsAlike_beq

end AgreeOnReads

/-- Settles O3: the table is the definition's own, and agreement on what an instruction reads gives
like effects for each of the seven forms. -/
theorem instructionsReadAndWriteOnlyTheirRegisters :
    Obligations.InstructionsReadAndWriteOnlyTheirRegisters := by
  refine ⟨fun a b c v => ?_, fun i s s' hpc hdmem hparams hsources => ?_⟩
  · simp [Instr.sources, Instr.dest]
  · exact AgreeOnReads.actsAlike ⟨hpc, hdmem, hparams, hsources⟩

end Sys2Proof.Machine

/-! ### The data memory: the address check, reads and writes (20_memory.md R52, R54, R55) -/

namespace Sys2Proof.Machine
variable {s t : State} {i : Instr} {a v : Word}

/-- The bits of R52 and R58 as arithmetic. -/
theorem lowBits_eq_zero_iff (a : Word) : a.extractLsb' 0 2 = 0#2 ↔ a.toNat % 4 = 0 := by
  rw [← aligned_iff, aligned, beq_iff_eq]

/-- `DataAddrOK` in the words of R52. -/
theorem State.dataAddrOK_iff_lowBits (s : State) (a : Word) :
    s.dataAddrOK a = true ↔ a.extractLsb' 0 2 = 0#2 ∧ a.toNat / 4 < s.params.dmemWords := by
  rw [State.dataAddrOK_iff, lowBits_eq_zero_iff]

theorem State.dataAddrOK_eq_false
    (h : ¬(a.extractLsb' 0 2 = 0#2 ∧ a.toNat / 4 < s.params.dmemWords)) :
    s.dataAddrOK a = false :=
  Bool.eq_false_iff.2 fun hok => h ((s.dataAddrOK_iff_lowBits a).1 hok)

/-- R52: "negative" addresses are large unsigned ones, at byte 2^31 and above. -/
theorem State.dataAddrOK_of_neg (ha : a.toInt < 0) (hsize : s.params.dmemWords ≤ 2 ^ 29) :
    s.dataAddrOK a = false := by
  have hlarge : 2 ^ 32 ≤ 2 * a.toNat := BitVec.toInt_neg_iff.1 ha
  apply State.dataAddrOK_eq_false
  omega

theorem State.memRead_of_ok (h : s.dataAddrOK a = true) :
    s.memRead a = .ok (s.cell (wordIndex a)) := if_pos h

theorem State.memRead_of_bad (h : s.dataAddrOK a = false) :
    s.memRead a = .error (.memoryAccess a) := if_neg (Bool.eq_false_iff.1 h)

theorem State.memWrite_of_ok (h : s.dataAddrOK a = true) (v : Word) :
    s.memWrite a v = .ok (s.storeCell (wordIndex a) v) := if_pos h

theorem State.memWrite_of_bad (h : s.dataAddrOK a = false) (v : Word) :
    s.memWrite a v = .error (.memoryAccess a) := if_neg (Bool.eq_false_iff.1 h)

theorem State.cell_storeCell_same (hm : Memory.wf s.dmem) (j : Nat) (v : Word) :
    (s.storeCell j v).cell j = v := by
  rw [s.cell_storeCell j j v hm, if_pos rfl]

theorem State.cell_storeCell_ne (hm : Memory.wf s.dmem) {j k : Nat} (hk : k ≠ j) (v : Word) :
    (s.storeCell j v).cell k = s.cell k := by
  rw [s.cell_storeCell j k v hm, if_neg hk]

/-- Settles O8: a good address stores to its cell, by the laws of a read after a store. -/
theorem memWriteReplacesOneCell : Obligations.MemWriteReplacesOneCell := by
  intro s a v hm
  refine ⟨fun hok => ⟨_, State.memWrite_of_ok hok v, ?_⟩, fun hbad => State.memWrite_of_bad hbad v⟩
  exact ⟨State.cell_storeCell_same hm _ v, fun j hj => State.cell_storeCell_ne hm hj v,
    fun r => s.storeCell_readReg r v _, s.storeCell_pc v _, s.storeCell_params v _⟩

/-- Settles O6: the check is R52's conjunction, and either failure takes the faulting branch of the
read and of the write. -/
theorem dataAddressCheck : Obligations.DataAddressCheck := fun s a =>
  ⟨s.dataAddrOK_iff_lowBits a,
    fun h =>
      have hbad := State.dataAddrOK_eq_false h
      ⟨State.memRead_of_bad hbad, State.memWrite_of_bad hbad⟩,
    State.dataAddrOK_of_neg⟩

/-- Settles O7: the two branches of the read. -/
theorem memReadAnswersTheCell : Obligations.MemReadAnswersTheCell := fun _ _ =>
  ⟨State.memRead_of_ok, State.memRead_of_bad⟩

/-! ### Loads and stores at their effective address (42_load_store.md section 2) -/

/-- R160: the effective address is the wrapped sum of the base and the sign-extended offset. -/
theorem State.effAddr_eq (s : State) (rs : Reg) (imm16 : Half) :
    s.effAddr rs imm16 = s.readReg rs + sext32 imm16 := rfl

/-- The end of an `sw`: on a memory in canonical form it replaces the addressed cell only. -/
theorem State.storeCell_advance_writesCell (hm : Memory.wf s.dmem) (a v : Word) :
    WritesCell s (s.storeCell (wordIndex a) v).advance a v where
  cell := State.cell_storeCell_same hm _ v
  others _ hj := State.cell_storeCell_ne hm hj v
  regs _ := rfl
  pc := rfl
  params := rfl

/-- Settles O22: the good address retires the addressed cell, the bad one faults. -/
theorem lwLoadsTheCellOrFaults : Obligations.LwLoadsTheCellOrFaults := by
  rintro rd rs imm16 s _ rfl
  rw [exec_lw, State.effAddr_eq]
  refine ⟨fun hgood => ?_, fun hbad => ?_⟩
  · rw [if_pos ((s.dataAddrOK_iff_lowBits _).2 hgood)]
    exact ⟨_, rfl, s.retire_writesRegister rd _⟩
  · rw [State.dataAddrOK_eq_false hbad, if_neg Bool.false_ne_true]

/-- Settles O23: the good address stores to its cell and advances, the bad one faults. -/
theorem swStoresTheCellOrFaults : Obligations.SwStoresTheCellOrFaults := by
  rintro rt rs imm16 s _ hm rfl
  rw [exec_sw, State.effAddr_eq]
  refine ⟨fun hgood => ?_, fun hbad => ?_⟩
  · rw [if_pos ((s.dataAddrOK_iff_lowBits _).2 hgood)]
    exact ⟨_, rfl, State.storeCell_advance_writesCell hm _ _⟩
  · rw [State.dataAddrOK_eq_false hbad, if_neg Bool.false_ne_true]

/-! ### Only a store changes a cell (20_memory.md R50) -/

/-- An instruction that changes a cell is an `sw` with a good address, that of the cell. -/
theorem exec_changes_cell (hm : Memory.wf s.dmem) (he : exec i s = .next t) {j : Nat}
    (hj : t.cell j ≠ s.cell j) :
    ∃ rt rs imm16, i = .sw rt rs imm16 ∧ s.dataAddrOK (s.effAddr rs imm16) = true ∧
      wordIndex (s.effAddr rs imm16) = j ∧ t.cell j = s.readReg rt := by
  rcases exec_next_cases he with ⟨rd, _, rfl⟩ | ⟨rt, rs, imm16, hi, hok, rfl⟩ |
    ⟨rs, rt, imm16, _, rfl⟩
  · exact absurd (s.retire_cell rd _ j) hj
  · have hw := State.storeCell_advance_writesCell hm (s.effAddr rs imm16) (s.readReg rt)
    obtain rfl : j = wordIndex (s.effAddr rs imm16) := by
      by_contra hne
      exact hj (hw.others j hne)
    exact ⟨rt, rs, imm16, hi, hok, rfl, hw.cell⟩
  · exact absurd (s.setPc_cell _ j) hj

/-- A good data address is four times the index of its cell. -/
theorem State.toNat_eq_of_dataAddrOK (h : s.dataAddrOK a = true) :
    a.toNat = 4 * wordIndex a := by
  obtain ⟨haligned, _⟩ := (s.dataAddrOK_iff a).1 h
  rw [wordIndex]
  omega

/-- Settles O11: the step executed the instruction it fetched, and only an `sw` changes a cell. -/
theorem onlyStoresChangeCells : Obligations.OnlyStoresChangeCells := by
  intro s t hm hstep j hj
  obtain ⟨i, hfetch, he⟩ := (step_next_iff s t).1 hstep
  obtain ⟨rt, rs, imm16, rfl, hok, rfl, hcell⟩ := exec_changes_cell hm he hj
  exact ⟨rt, rs, imm16, hfetch, State.toNat_eq_of_dataAddrOK hok, hcell⟩

/-! ### The instruction memory: fetches, and that no step changes it (20_memory.md R58, R65) -/

theorem exec_params (he : exec i s = .next t) : t.params = s.params := by
  rcases exec_next_cases he with ⟨rd, _, rfl⟩ | ⟨rt, rs, imm16, _, _, rfl⟩ |
    ⟨rs, rt, imm16, _, rfl⟩
  · exact s.retire_params rd _
  · simp
  · exact s.setPc_params _

theorem step_params (h : step s = .next t) : t.params = s.params := by
  obtain ⟨i, _, he⟩ := (step_next_iff s t).1 h
  exact exec_params he

/-- A fetch reads the parameters only. -/
theorem State.fetch_congr (h : t.params = s.params) (a : Word) : t.fetch a = s.fetch a := by
  rw [State.fetch, State.fetch, h]

/-- Settles O10: the program is a parameter, and no step changes the parameters. -/
theorem storesNeverReachInstructionMemory : Obligations.StoresNeverReachInstructionMemory :=
  fun _ _ hstep a => State.fetch_congr (step_params hstep) a

theorem State.fetch_of_lt (h : a.toNat / 4 < s.params.program.length)
    (ha : a.extractLsb' 0 2 = 0#2) : s.fetch a = .ok s.params.program[a.toNat / 4] := by
  rcases s.fetch_cases a with ⟨w, _, hw, hf⟩ | ⟨hbad, _⟩
  · rw [hf, List.getElem_of_getElem? hw |>.2]
  · have := (lowBits_eq_zero_iff a).1 ha
    omega

theorem State.fetch_of_bad
    (h : ¬(a.extractLsb' 0 2 = 0#2 ∧ a.toNat / 4 < s.params.program.length)) :
    s.fetch a = .error (.programCounterOutOfRange a) := by
  rcases s.fetch_cases a with ⟨w, ha, hw, _⟩ | ⟨_, hf⟩
  · exact absurd ⟨(lowBits_eq_zero_iff a).2 ha, List.getElem?_eq_some_iff.1 hw |>.1⟩ h
  · exact hf

/-- A fault of the fetch at the pc is the fault of the step. -/
theorem step_fault_of_fetch {f : Fault} (h : s.fetch s.pc = .error f) : step s = .fault f :=
  (step_fault_iff s f).2 (.inl ((s.fetchDecode_error_iff f).2 (.inl h)))

/-- Settles O9: the two outcomes of a fetch; an empty program has no slot at any pc. -/
theorem fetchAnswersTheSlot : Obligations.FetchAnswersTheSlot := fun s _ =>
  ⟨State.fetch_of_lt, State.fetch_of_bad, fun hempty =>
    step_fault_of_fetch (State.fetch_of_bad fun ⟨_, hlt⟩ => by simp [hempty] at hlt)⟩

end Sys2Proof.Machine

/-! ### The operand of `beq` (30_encoding.md R100) -/

namespace Sys2Proof.Machine

theorem branchOperand_toNat (v : Half) :
    (branchOperand v).toNat = 4 * (sext32 v).toNat % 2 ^ 32 :=
  BitVec.toNat_mul ..

theorem branchOperand_eq_shiftLeft (v : Half) : branchOperand v = sext32 v <<< 2 := by
  rw [branchOperand, BitVec.mul_comm]
  exact (BitVec.shiftLeft_eq_mul_twoPow (sext32 v) 2).symm

/-- Four times a 16-bit signed reading fits in 32 bits, so the product does not wrap as a signed
number. -/
theorem branchOperand_toInt (v : Half) : (branchOperand v).toInt = 4 * v.toInt := by
  have hlo := BitVec.le_toInt v
  have hhi := BitVec.toInt_lt (x := v)
  have h4 : (4 : Word).toInt = 4 := by decide
  rw [branchOperand, BitVec.toInt_mul, sext32_toInt, h4]
  exact Int.bmod_eq_of_le (by omega) (by omega)

theorem le_branchOperand_toInt (v : Half) : -131072 ≤ (branchOperand v).toInt := by
  have hlo := BitVec.le_toInt v
  rw [branchOperand_toInt]
  omega

theorem branchOperand_toInt_le (v : Half) : (branchOperand v).toInt ≤ 131068 := by
  have hhi := BitVec.toInt_lt (x := v)
  rw [branchOperand_toInt]
  omega

/-- Settles O5, from the three readings of the operand: product, shift and signed number. -/
theorem branchOperandCountsInstructions : Obligations.BranchOperandCountsInstructions := fun v _ =>
  ⟨branchOperand_toNat v, branchOperand_eq_shiftLeft v, rfl, branchOperand_toInt v,
    le_branchOperand_toInt v, branchOperand_toInt_le v⟩

end Sys2Proof.Machine

/-! ### The two outcomes of a step, and no refusal (40_execution_loop.md R121) -/

namespace Sys2Proof.Machine
variable {s t : State} {f : Fault} {m : Nat}

/-- Loads and stores fault on a bad address; every other instruction completes. -/
theorem exec_next_or_fault (i : Instr) (s : State) :
    (∃ t, exec i s = .next t) ∨ (∃ f, exec i s = .fault f) := by
  rcases exec_cases i s with ⟨_, _, he⟩ | ⟨_, _, _, _, _, he⟩ | ⟨_, _, _, _, _, he⟩ |
    ⟨_, _, _, _, _, he⟩ | ⟨_, _, _, _, _, he⟩
  case inr.inr.inr.inr => exact .inr ⟨_, he⟩
  all_goals exact .inl ⟨_, he⟩

/-- Fetch and decode fault, or the instruction they answer has its two outcomes. -/
theorem step_next_or_fault (s : State) :
    (∃ t, step s = .next t) ∨ (∃ f, step s = .fault f) := by
  cases hfetch : s.fetchDecode with
  | error f => exact .inr ⟨f, (step_fault_iff s f).2 (.inl hfetch)⟩
  | ok i =>
    rw [step_eq_exec s i hfetch]
    exact exec_next_or_fault i s

theorem exec_ne_refused (i : Instr) (s : State) (r : Refusal) : exec i s ≠ .refused r := by
  rcases exec_next_or_fault i s with ⟨_, he⟩ | ⟨_, he⟩ <;> simp [he]

theorem step_ne_refused (s : State) (r : Refusal) : step s ≠ .refused r := by
  rcases step_next_or_fault s with ⟨_, hs⟩ | ⟨_, hs⟩ <;> simp [hs]

/-! ### `run` by the outcome of its first step (40_execution_loop.md R130) -/

@[simp] theorem run_zero (s : State) : run 0 s = .done s := rfl

theorem run_succ_of_next (h : step s = .next t) (n : Nat) : run (n + 1) s = run n t := by
  simp [run, h]

theorem run_succ_of_fault (h : step s = .fault f) (n : Nat) : run (n + 1) s = .faulted f s := by
  simp [run, h]

/-- Settles O31: the outcomes of `step` and `exec`; a run of one step gives back the state in which
the step faulted. -/
theorem stepHasTwoOutcomes : Obligations.StepHasTwoOutcomes := fun s =>
  ⟨(step_next_or_fault s).imp_right fun ⟨f, hf⟩ => ⟨f, hf, run_succ_of_fault hf 0⟩,
    step_ne_refused s, fun i => exec_ne_refused i s⟩

/-- R130: a run that used up its budget goes on from where it stands. -/
theorem run_add_of_done (h : run m s = .done t) (n : Nat) : run (m + n) s = run n t := by
  induction m generalizing s with
  | zero =>
    obtain rfl : s = t := by simpa using h
    rw [Nat.zero_add]
  | succ m ih =>
    rw [Nat.succ_add]
    rcases step_next_or_fault s with ⟨u, hs⟩ | ⟨f, hs⟩
    · rw [run_succ_of_next hs] at h ⊢
      exact ih h
    · rw [run_succ_of_fault hs] at h
      cases h

/-- R130: a run that faulted gives the same answer under any larger budget. -/
theorem run_add_of_faulted (h : run m s = .faulted f t) (n : Nat) :
    run (m + n) s = .faulted f t := by
  induction m generalizing s with
  | zero => cases h
  | succ m ih =>
    rw [Nat.succ_add]
    rcases step_next_or_fault s with ⟨u, hs⟩ | ⟨g, hs⟩
    · rw [run_succ_of_next hs] at h ⊢
      exact ih h
    · rw [run_succ_of_fault hs] at h ⊢
      exact h

/-- R130: the state a faulted run answers is the one whose step faulted. -/
theorem step_fault_of_run_faulted (h : run m s = .faulted f t) : step t = .fault f := by
  induction m generalizing s with
  | zero => cases h
  | succ m ih =>
    rcases step_next_or_fault s with ⟨u, hs⟩ | ⟨g, hs⟩
    · rw [run_succ_of_next hs] at h
      exact ih h
    · rw [run_succ_of_fault hs] at h
      cases h
      exact hs

/-- Settles O45: the two equations of `run`, and an induction on the first budget for each way a run
can end. -/
theorem runIsRepeatedStepping : Obligations.RunIsRepeatedStepping := fun s _ n =>
  ⟨run_zero s, fun _ hs => run_succ_of_next hs n, fun _ hs => run_succ_of_fault hs n,
    fun _ hrun => run_add_of_done hrun n,
    fun _ _ hrun => ⟨run_add_of_faulted hrun n, step_fault_of_run_faulted hrun⟩⟩

/-! ### One effect per completed step (40_execution_loop.md R126) -/

theorem State.setPc_movesPc (s : State) (a : Word) : MovesPc s (s.setPc a) a where
  pc := rfl
  regs _ := rfl
  cells _ := rfl
  params := rfl

/-- Settles O32: the three forms of a completed instruction's next state, each with its frame. -/
theorem oneEffectPerStep : Obligations.OneEffectPerStep := by
  intro s t hm hstep
  obtain ⟨i, hfetch, he⟩ := (step_next_iff s t).1 hstep
  refine ⟨i, hfetch, ?_⟩
  rcases exec_next_cases he with ⟨rd, hd, rfl⟩ | ⟨rt, rs, imm16, hi, _, rfl⟩ |
    ⟨rs, rt, imm16, hi, rfl⟩
  · exact .inl ⟨rd, _, hd, s.retire_writesRegister rd _⟩
  · exact .inr (.inl ⟨rt, rs, imm16, hi, State.storeCell_advance_writesCell hm _ _⟩)
  · exact .inr (.inr ⟨rs, rt, imm16, hi, s.setPc_movesPc _⟩)

end Sys2Proof.Machine

/-! ### The ALU and immediate instructions (41_alu.md R140 to R144) -/

namespace Sys2Proof.Machine
variable {i : Instr} {a b : Word}

/-! What each of the four answers: it retires its result, whatever the operands. -/

theorem exec_and (s : State) (rd rs rt : Reg) :
    exec (.and rd rs rt) s = .next (s.retire rd (s.readReg rs &&& s.readReg rt)) := rfl

theorem exec_addi (s : State) (rd rs : Reg) (imm16 : Half) :
    exec (.addi rd rs imm16) s = .next (s.retire rd (s.readReg rs + sext32 imm16)) := rfl

theorem exec_slt (s : State) (rd rs rt : Reg) :
    exec (.slt rd rs rt) s = .next (s.retire rd (sltResult (s.readReg rs) (s.readReg rt))) := rfl

theorem exec_lui (s : State) (rd : Reg) (imm16 : Half) :
    exec (.lui rd imm16) s = .next (s.retire rd (luiOperand imm16)) := rfl

/-- Settles O18: the bits of the retired word are the conjunctions of the operands' bits. -/
theorem andWritesBitwiseAnd : Obligations.AndWritesBitwiseAnd := fun rd rs rt s =>
  ⟨_, _, exec_and s rd rs rt, s.retire_writesRegister rd _, fun k _ => by
    rw [BitVec.getLsbD_and, Bool.and_eq_true]⟩

/-- R142: read as signed numbers, the sum wraps to the same word. -/
theorem add_sext32_toInt (a : Word) (v : Half) :
    (a + sext32 v).toInt = Int.bmod (a.toInt + v.toInt) (2 ^ 32) := by
  rw [BitVec.toInt_add, sext32_toInt]

/-- Settles O19: the two readings of the retired sum. -/
theorem addiWritesWrappedSum : Obligations.AddiWritesWrappedSum := fun rd rs imm16 s =>
  ⟨_, _, exec_addi s rd rs imm16, s.retire_writesRegister rd _, BitVec.toNat_add _ _,
    add_sext32_toInt _ _⟩

/-- The two's-complement reading of a word as 00_scope.md R7 writes it out. -/
theorem toInt_eq_ite_bit31 (v : Word) :
    v.toInt = (if v.getLsbD 31 then (v.toNat : Int) - 2 ^ 32 else v.toNat : Int) := by
  rw [BitVec.toInt_eq_msb_cond, BitVec.msb_eq_getLsbD_last]
  rfl

theorem sltResult_of_lt (h : a.toInt < b.toInt) : sltResult a b = 1 :=
  if_pos ((signedLess_iff a b).2 h)

theorem sltResult_of_not_lt (h : ¬a.toInt < b.toInt) : sltResult a b = 0 :=
  if_neg fun hless => h ((signedLess_iff a b).1 hless)

/-- Settles O20: the reading written out in the statement is `toInt`, which `slt` compares. -/
theorem sltWritesSignedComparison : Obligations.SltWritesSignedComparison := by
  intro rd rs rt s signed
  have hsigned (v : Word) : signed v = v.toInt := (toInt_eq_ite_bit31 v).symm
  rw [hsigned, hsigned]
  exact ⟨_, _, exec_slt s rd rs rt, s.retire_writesRegister rd _, sltResult_of_lt,
    sltResult_of_not_lt⟩

theorem luiOperand_upperHalf (v : Half) : (luiOperand v).extractLsb' 16 16 = v := by
  rw [luiOperand_eq_append, BitVec.extractLsb'_append_eq_left]

theorem luiOperand_lowerHalf (v : Half) : (luiOperand v).extractLsb' 0 16 = 0#16 := by
  rw [luiOperand_eq_append, BitVec.extractLsb'_append_eq_right]

/-- Settles O21: the two halves of the operand that `lui` retires. -/
theorem luiLoadsUpperHalf : Obligations.LuiLoadsUpperHalf := fun rd imm16 s =>
  ⟨_, _, exec_lui s rd imm16, s.retire_writesRegister rd _, luiOperand_upperHalf imm16,
    luiOperand_lowerHalf imm16, rfl⟩

/-- The four instructions of R140. -/
def Instr.IsAlu (i : Instr) : Prop :=
  (∃ rd rs rt, i = .and rd rs rt) ∨ (∃ rd rs imm16, i = .addi rd rs imm16) ∨
    (∃ rd rs rt, i = .slt rd rs rt) ∨ (∃ rd imm16, i = .lui rd imm16)

theorem Instr.IsAlu.sources_length_le (h : Instr.IsAlu i) : i.sources.length ≤ 2 := by
  rcases h with ⟨_, _, _, rfl⟩ | ⟨_, _, _, rfl⟩ | ⟨_, _, _, rfl⟩ | ⟨_, _, rfl⟩ <;>
    simp [Instr.sources]

/-- R140: an ALU instruction has a destination and retires its result, in every state. -/
theorem Instr.IsAlu.exec_eq (h : Instr.IsAlu i) (s : State) :
    ∃ rd, i.dest = some rd ∧ exec i s = .next (s.retire rd (Instr.resultIn s i)) := by
  rcases h with ⟨rd, rs, rt, rfl⟩ | ⟨rd, rs, imm16, rfl⟩ | ⟨rd, rs, rt, rfl⟩ | ⟨rd, imm16, rfl⟩
  · exact ⟨rd, rfl, exec_and s rd rs rt⟩
  · exact ⟨rd, rfl, exec_addi s rd rs imm16⟩
  · exact ⟨rd, rfl, exec_slt s rd rs rt⟩
  · exact ⟨rd, rfl, exec_lui s rd imm16⟩

/-- Settles O29: retiring writes one register and leaves the data memory; a step that executes such
an instruction answers what it answers, a next state. -/
theorem aluInstructionsAlwaysComplete : Obligations.AluInstructionsAlwaysComplete := by
  intro i s (halu : Instr.IsAlu i)
  obtain ⟨rd, hd, he⟩ := halu.exec_eq s
  refine ⟨halu.sources_length_le,
    ⟨rd, _, _, hd, he, s.retire_writesRegister rd _, s.retire_dmem rd _⟩, fun f hfetch hfault => ?_⟩
  rw [step_eq_exec s i hfetch, he] at hfault
  cases hfault

/-! ### Building a 32-bit constant (41_alu.md R147) -/

theorem State.readReg_retire_same (s : State) {rd : Reg} (hrd : rd ≠ 0) (v : Word) :
    (s.retire rd v).readReg rd = v := by
  rw [State.readReg_retire, if_pos ⟨rfl, hrd⟩]

/-- `lui` then `addi` to the same register: both complete, and the register holds the sum. -/
theorem exec_lui_addi (s : State) {rd : Reg} (hrd : rd ≠ 0) (hi lo : Half) :
    ∃ t u, exec (.lui rd hi) s = .next t ∧ exec (.addi rd rd lo) t = .next u ∧
      u.readReg rd = luiOperand hi + sext32 lo := by
  refine ⟨_, _, exec_lui s rd hi, exec_addi _ rd rd lo, ?_⟩
  rw [State.readReg_retire_same _ hrd, State.readReg_retire_same _ hrd]

/-- The field of the `lui` that builds `c`: its upper half, one greater (modulo 2^16) when bit 15 of
`c` is set (R147). -/
def constantUpper (c : Word) : Half := c.extractLsb' 16 16 + if c.getLsbD 15 then 1 else 0

/-- The field of the `addi` that builds `c`: its lower half. -/
def constantLower (c : Word) : Half := c.extractLsb' 0 16

theorem constantUpper_toNat (c : Word) :
    (constantUpper c).toNat = (c.toNat / 2 ^ 16 + if c.getLsbD 15 then 1 else 0) % 2 ^ 16 := by
  rw [constantUpper, BitVec.toNat_add, BitVec.extractLsb'_toNat, Nat.shiftRight_eq_div_pow]
  split <;> simp

/-- R9: sign extension of the lower half adds sixteen ones above it when bit 15 is set. -/
theorem sext32_constantLower_toNat (c : Word) :
    (sext32 (constantLower c)).toNat =
      c.toNat % 2 ^ 16 + if c.getLsbD 15 then 2 ^ 32 - 2 ^ 16 else 0 := by
  have hmsb : (constantLower c).msb = c.getLsbD 15 := by
    simp [constantLower, BitVec.msb_eq_getLsbD_last]
  rw [sext32, BitVec.toNat_signExtend, hmsb, constantLower, BitVec.toNat_setWidth,
    BitVec.extractLsb'_toNat, Nat.shiftRight_zero]
  omega

/-- The unit added to the upper half cancels the ones of the sign extension. -/
theorem luiOperand_add_sext32_constant (c : Word) :
    luiOperand (constantUpper c) + sext32 (constantLower c) = c := by
  apply BitVec.eq_of_toNat_eq
  rw [BitVec.toNat_add, luiOperand_toNat, constantUpper_toNat, sext32_constantLower_toNat]
  have := c.isLt
  split <;> omega

/-- Settles O27: the pair builds the sum, and the fields of R147 build a wanted word. -/
theorem luiThenAddiBuildsAnyConstant : Obligations.LuiThenAddiBuildsAnyConstant := by
  refine fun s rd hrd => ⟨exec_lui_addi s hrd, fun c => ?_⟩
  obtain ⟨t, u, hlui, haddi, hread⟩ := exec_lui_addi s hrd (constantUpper c) (constantLower c)
  exact ⟨_, _, t, u, hlui, haddi, hread.trans (luiOperand_add_sext32_constant c)⟩

end Sys2Proof.Machine

/-! ### The branch (43_branch.md R180 to R183) -/

namespace Sys2Proof.Machine
variable {s : State} {rs rt : Reg}

theorem State.nextPc_toNat (s : State) : s.nextPc.toNat = (s.pc.toNat + 4) % 2 ^ 32 :=
  BitVec.toNat_add ..

/-- R100: the unsigned reading of the operand is the signed distance modulo 2^32. -/
theorem branchOperand_toNat_signed (v : Half) :
    ((branchOperand v).toNat : Int) = 4 * (sext32 v).toInt % 2 ^ 32 := by
  rw [sext32_toInt, ← branchOperand_toInt, BitVec.toInt_eq_toNat_cond]
  split <;> omega

/-- R181: the target as a signed distance from the branch's own address. -/
theorem State.branchTarget_toNat (s : State) (imm16 : Half) :
    ((s.branchTarget imm16).toNat : Int) =
      ((s.pc.toNat : Int) + 4 + 4 * (sext32 imm16).toInt) % 2 ^ 32 := by
  have hop := branchOperand_toNat_signed imm16
  rw [State.branchTarget, BitVec.toNat_add, State.nextPc_toNat]
  omega

theorem exec_beq_of_eq (h : s.readReg rs = s.readReg rt) (imm16 : Half) :
    exec (.beq rs rt imm16) s = .next (s.setPc (s.branchTarget imm16)) := by
  rw [exec_beq, if_pos h]

theorem step_beq_of_eq {imm16 : Half} (hfetch : s.fetchDecode = .ok (.beq rs rt imm16))
    (h : s.readReg rs = s.readReg rt) : step s = .next (s.setPc (s.branchTarget imm16)) :=
  (step_eq_exec s _ hfetch).trans (exec_beq_of_eq h imm16)

/-- Settles O24: a branch moves the pc, by the two cases of the comparison to the target or to the
next instruction. -/
theorem beqRedirectsOrFallsThrough : Obligations.BeqRedirectsOrFallsThrough := by
  refine fun rs rt imm16 s => ⟨_, _, exec_beq s rs rt imm16, s.setPc_movesPc _, fun h => ?_,
    fun h => ?_⟩
  · rw [if_pos h]
    exact s.branchTarget_toNat imm16
  · rw [if_neg h]
    exact s.nextPc_toNat

/-- Settles O25: the step of a taken branch answers the state at the target, where `run` and `step`
go on as from any state. -/
theorem takenBranchHasNoDelaySlot : Obligations.TakenBranchHasNoDelaySlot := by
  intro s rs rt imm16 hfetch heq
  have hstep := step_beq_of_eq hfetch heq
  exact ⟨_, hstep, s.setPc_pc _, run_succ_of_next hstep, step_eq_exec _⟩

/-- The field of a branch to itself: only an offset of -1 instruction undoes the advance. -/
theorem State.branchTarget_eq_pc_iff (s : State) (imm16 : Half) :
    s.branchTarget imm16 = s.pc ↔ imm16 = 0xFFFF#16 := by
  rw [← branchOperand_eq_neg4, State.branchTarget, State.nextPc]
  bv_omega

theorem fixedPoint_of_self_branch (hfetch : s.fetchDecode = .ok (.beq rs rt 0xFFFF#16))
    (h : s.readReg rs = s.readReg rt) : FixedPoint s := by
  have hstep := step_beq_of_eq hfetch h
  rw [(s.branchTarget_eq_pc_iff _).2 rfl] at hstep
  exact hstep

theorem run_of_fixedPoint (h : FixedPoint s) (n : Nat) : run n s = .done s := by
  induction n with
  | zero => exact run_zero s
  | succ n ih => exact (run_succ_of_next h n).trans ih

/-- Settles O26: a self-branch with equal operands is a fixed point of `step`, hence of every
run. -/
theorem selfBranchRepeats : Obligations.SelfBranchRepeats := fun _ _ _ hfetch heq n =>
  run_of_fixedPoint (fixedPoint_of_self_branch hfetch heq) n

end Sys2Proof.Machine

/-! ### When a step faults (60_exceptions.md R190, R191) -/

namespace Sys2Proof.Machine
variable {s : State} {i : Instr} {f : Fault} {a : Word}

/-- The one way an instruction faults: a load or store at a bad data address. -/
theorem exec_fault_cases (h : exec i s = .fault f) :
    ∃ r rs imm16, (i = .lw r rs imm16 ∨ i = .sw r rs imm16) ∧
      s.dataAddrOK (s.effAddr rs imm16) = false ∧ f = .memoryAccess (s.effAddr rs imm16) := by
  rcases exec_cases i s with ⟨_, _, he⟩ | ⟨_, _, _, _, _, he⟩ | ⟨_, _, _, _, _, he⟩ |
    ⟨_, _, _, _, _, he⟩ | ⟨r, rs, imm16, hi, hbad, he⟩ <;>
    rw [he] at h <;> cases h
  exact ⟨r, rs, imm16, hi, hbad, rfl⟩

/-- R58: a fetch faults exactly where no instruction stands, and reports the address fetched. -/
theorem State.fetch_error_iff (s : State) (a : Word) (f : Fault) :
    s.fetch a = .error f ↔
      (a.extractLsb' 0 2 ≠ 0#2 ∨ s.params.program.length ≤ a.toNat / 4) ∧
        f = .programCounterOutOfRange a := by
  constructor
  · intro h
    by_cases hgood : a.extractLsb' 0 2 = 0#2 ∧ a.toNat / 4 < s.params.program.length
    · obtain ⟨ha, hlt⟩ := hgood
      rw [State.fetch_of_lt hlt ha] at h
      cases h
    · rw [State.fetch_of_bad hgood] at h
      cases h
      exact ⟨(not_and_or.1 hgood).imp_right Nat.le_of_not_lt, rfl⟩
  · rintro ⟨hbad, rfl⟩
    exact State.fetch_of_bad fun ⟨ha, hlt⟩ => hbad.elim (· ha) (Nat.not_le_of_lt hlt)

/-- R191: the program-counter fault comes from the fetch; decode and execution raise others. -/
theorem step_programCounterOutOfRange_iff :
    step s = .fault (.programCounterOutOfRange a) ↔
      s.fetch s.pc = .error (.programCounterOutOfRange a) := by
  refine ⟨fun h => ?_, step_fault_of_fetch⟩
  rcases (step_fault_iff s _).1 h with herror | ⟨i, _, he⟩
  · rcases (s.fetchDecode_error_iff _).1 herror with hfetch | ⟨_, _, _, hf⟩
    · exact hfetch
    · cases hf
  · obtain ⟨_, _, _, _, _, hf⟩ := exec_fault_cases he
    cases hf

/-- Settles O38: the fault is that of the fetch at the pc, which reports the pc. -/
theorem programCounterFaultExactly : Obligations.ProgramCounterFaultExactly := by
  intro s a
  rw [step_programCounterOutOfRange_iff, State.fetch_error_iff,
    Fault.programCounterOutOfRange.injEq]
  constructor
  · rintro ⟨hbad, rfl⟩
    exact ⟨rfl, hbad⟩
  · rintro ⟨rfl, hbad⟩
    exact ⟨hbad, rfl⟩

end Sys2Proof.Machine

/-! ### The state after reset (70_reset_and_hazards.md R231) -/

namespace Sys2Proof.Machine

/-- After reset with `p`, a register other than 0 holds its word of `REG_RESET` (R231). -/
theorem State.readReg_resetWith_of_ne_zero (p : Params) (i : Reg) (h : i ≠ 0) :
    (State.resetWith p).readReg i =
      p.regReset[i.val - 1]'(by have := Fin.val_ne_of_ne h; omega) := by
  cases i using Fin.cases with
  | zero => exact absurd rfl h
  | succ k => exact State.readReg_resetWith p k k.isLt

/-- Settles O43: a nonzero register is the successor of an index into `REG_RESET`; register 0 reads 0
in every state, and reset puts the pc at `ENTRY` and lists no data cell. -/
theorem resetGivesEveryPieceItsValue : Obligations.ResetGivesEveryPieceItsValue := fun p =>
  ⟨State.readReg_zero _, State.readReg_resetWith_of_ne_zero p, State.resetWith_pc p,
    fun j _ => State.resetWith_cell j p⟩

end Sys2Proof.Machine

/-! ### The rows of the opcode map are exclusive (30_encoding.md section 3) -/

namespace Sys2Proof
variable {r r' : EncodingRow} {w : Word}

theorem EncodingRow.hits_iff (r : EncodingRow) (w : Word) :
    r.hits w = true ↔ w &&& r.mask = r.pattern := beq_iff_eq

/-- The patterns of two rows that one word selects agree on the bits that both masks fix. -/
theorem EncodingRow.patterns_agree_of_hits (h : r.hits w = true) (h' : r'.hits w = true) :
    r.pattern &&& r'.mask = r'.pattern &&& r.mask := by
  rw [EncodingRow.hits_iff] at h h'
  rw [← h, ← h', BitVec.and_assoc, BitVec.and_assoc, BitVec.and_comm r.mask]

/-- The map itself: the patterns of two different rows differ on a bit that both masks fix. -/
theorem opcodeMap_eq_of_patterns_agree : ∀ r ∈ opcodeMap, ∀ r' ∈ opcodeMap,
    r.pattern &&& r'.mask = r'.pattern &&& r.mask → r = r' := by decide

theorem opcodeMap_eq_of_hits (hr : r ∈ opcodeMap) (hr' : r' ∈ opcodeMap) (h : r.hits w = true)
    (h' : r'.hits w = true) : r = r' :=
  opcodeMap_eq_of_patterns_agree r hr r' hr' (EncodingRow.patterns_agree_of_hits h h')

/-! ### The decoder by rows (30_encoding.md R94, R95) -/

/-- The instruction that a word of a row of the map stands for: its operands are the fields of the
word, in the roles of R86. -/
def EncodingRow.read (r : EncodingRow) (w : Word) : Instr :=
  if r = rowAnd then .and (fieldC w) (fieldA w) (fieldB w)
  else if r = rowAddi then .addi (fieldB w) (fieldA w) (fieldImm w)
  else if r = rowSlt then .slt (fieldC w) (fieldA w) (fieldB w)
  else if r = rowLui then .lui (fieldB w) (fieldImm w)
  else if r = rowLw then .lw (fieldB w) (fieldA w) (fieldImm w)
  else if r = rowSw then .sw (fieldB w) (fieldA w) (fieldImm w)
  else .beq (fieldA w) (fieldB w) (fieldImm w)

/-- What the decoder answers: the reading of a row that the word selects, or `illegal` for a word
that selects none. -/
theorem decode_cases (w : Word) :
    (∃ r ∈ opcodeMap, r.hits w = true ∧ decode w = .instr (r.read w)) ∨
      ((∀ r ∈ opcodeMap, r.hits w = false) ∧ decode w = .illegal) := by
  unfold decode
  split_ifs with hand haddi hslt hlui hlw hsw hbeq
  · exact .inl ⟨rowAnd, by simp [opcodeMap], hand, rfl⟩
  · exact .inl ⟨rowAddi, by simp [opcodeMap], haddi, rfl⟩
  · exact .inl ⟨rowSlt, by simp [opcodeMap], hslt, rfl⟩
  · exact .inl ⟨rowLui, by simp [opcodeMap], hlui, rfl⟩
  · exact .inl ⟨rowLw, by simp [opcodeMap], hlw, rfl⟩
  · exact .inl ⟨rowSw, by simp [opcodeMap], hsw, rfl⟩
  · exact .inl ⟨rowBeq, by simp [opcodeMap], hbeq, rfl⟩
  · exact .inr ⟨by simp [opcodeMap, *], rfl⟩

theorem decode_of_hits (hr : r ∈ opcodeMap) (h : r.hits w = true) :
    decode w = .instr (r.read w) := by
  rcases decode_cases w with ⟨r', hr', h', hdecode⟩ | ⟨hnone, _⟩
  · rw [hdecode, opcodeMap_eq_of_hits hr hr' h h']
  · simp [hnone r hr] at h

theorem decode_ne_illegal_iff (w : Word) :
    decode w ≠ .illegal ↔ ∃ r ∈ opcodeMap, r.hits w = true := by
  rcases decode_cases w with ⟨r, hr, h, hdecode⟩ | ⟨hnone, hdecode⟩
  · simpa [hdecode] using ⟨r, hr, h⟩
  · simpa [hdecode] using hnone

theorem decode_eq_illegal_iff (w : Word) :
    decode w = .illegal ↔ ∀ r ∈ opcodeMap, r.hits w = false := by
  simpa using (decode_ne_illegal_iff w).not

theorem decode_eq_instr_iff (w : Word) (i : Instr) :
    decode w = .instr i ↔ ∃ r ∈ opcodeMap, r.hits w = true ∧ r.read w = i := by
  constructor
  · intro h
    rcases decode_cases w with ⟨r, hr, hhits, hdecode⟩ | ⟨_, hdecode⟩
    · exact ⟨r, hr, hhits, Decoded.instr.inj (hdecode.symm.trans h)⟩
    · rw [hdecode] at h
      cases h
  · rintro ⟨r, hr, hhits, rfl⟩
    exact decode_of_hits hr hhits

/-! ### Decoding an encoding (30_encoding.md section 3) -/

theorem encodedRow (i : Instr) : Laws.EncodedRow.Statement i := by
  cases i with
  | and rd rs rt => exact Laws.EncodedRow.and rd rs rt
  | addi rd rs imm16 => exact Laws.EncodedRow.addi rd rs imm16
  | slt rd rs rt => exact Laws.EncodedRow.slt rd rs rt
  | lui rd imm16 => exact Laws.EncodedRow.lui rd imm16
  | lw rd rs imm16 => exact Laws.EncodedRow.lw rd rs imm16
  | sw rt rs imm16 => exact Laws.EncodedRow.sw rt rs imm16
  | beq rs rt imm16 => exact Laws.EncodedRow.beq rs rt imm16

/-! The fields of the two formats are their operands (R84, R85). -/

section
variable (a b c : Reg) (funct op : BitVec 6) (imm16 : Half)

@[simp] theorem fieldA_formatR : fieldA (formatR a b c funct) = a := by
  apply Fin.ext
  rw [fieldA_val, formatR_toNat]
  omega

@[simp] theorem fieldB_formatR : fieldB (formatR a b c funct) = b := by
  apply Fin.ext
  rw [fieldB_val, formatR_toNat]
  omega

@[simp] theorem fieldC_formatR : fieldC (formatR a b c funct) = c := by
  apply Fin.ext
  rw [fieldC_val, formatR_toNat]
  omega

@[simp] theorem fieldA_formatI : fieldA (formatI op a b imm16) = a := by
  apply Fin.ext
  rw [fieldA_val, formatI_toNat]
  omega

@[simp] theorem fieldB_formatI : fieldB (formatI op a b imm16) = b := by
  apply Fin.ext
  rw [fieldB_val, formatI_toNat]
  omega

@[simp] theorem fieldImm_formatI : fieldImm (formatI op a b imm16) = imm16 := by
  apply BitVec.eq_of_toNat_eq
  rw [fieldImm_toNat, formatI_toNat]
  omega

end

/-! What each row reads (R86). -/

section
variable (w : Word)

@[simp] theorem rowAnd_read :
    rowAnd.read w = .and (fieldC w) (fieldA w) (fieldB w) := rfl
@[simp] theorem rowAddi_read :
    rowAddi.read w = .addi (fieldB w) (fieldA w) (fieldImm w) := rfl
@[simp] theorem rowSlt_read :
    rowSlt.read w = .slt (fieldC w) (fieldA w) (fieldB w) := rfl
@[simp] theorem rowLui_read : rowLui.read w = .lui (fieldB w) (fieldImm w) := rfl
@[simp] theorem rowLw_read : rowLw.read w = .lw (fieldB w) (fieldA w) (fieldImm w) := rfl
@[simp] theorem rowSw_read : rowSw.read w = .sw (fieldB w) (fieldA w) (fieldImm w) := rfl
@[simp] theorem rowBeq_read : rowBeq.read w = .beq (fieldA w) (fieldB w) (fieldImm w) := rfl

end

/-- Each field of an encoding holds the operand whose role it has. -/
theorem read_encode (i : Instr) : i.row.read (encode i) = i := by
  cases i <;> simp [Instr.row, encode]

theorem decode_encode (i : Instr) : decode (encode i) = .instr i := by
  obtain ⟨hmem, hhits, _⟩ := encodedRow i
  rw [decode_of_hits hmem hhits, read_encode]

/-! ### Well-formed records (30_encoding.md R80, R81) -/

theorem regInRange_iff (n : Nat) : regInRange n = true ↔ ∃ r : Reg, r.val = n := by
  constructor
  · exact fun h => ⟨⟨n, of_decide_eq_true h⟩, rfl⟩
  · rintro ⟨r, rfl⟩
    exact regInRange_val r

theorem immInRange_iff (n : Nat) : immInRange n = true ↔ ∃ v : Half, v.toNat = n := by
  constructor
  · exact fun h => ⟨BitVec.ofNat 16 n, Nat.mod_eq_of_lt (of_decide_eq_true h)⟩
  · rintro ⟨v, rfl⟩
    exact immInRange_toNat v

/-- R81: a well-formed record is the record of an instruction. -/
theorem Record.exists_instr_of_wellFormed {r : Record} (h : r.wellFormed = true) :
    ∃ i : Instr, i.toRecord = r := by
  cases r <;>
    simp only [Record.wellFormed, Bool.and_eq_true, regInRange_iff, immInRange_iff] at h
  case and =>
    obtain ⟨⟨⟨rd, rfl⟩, rs, rfl⟩, rt, rfl⟩ := h
    exact ⟨.and rd rs rt, rfl⟩
  case addi =>
    obtain ⟨⟨⟨rd, rfl⟩, rs, rfl⟩, imm16, rfl⟩ := h
    exact ⟨.addi rd rs imm16, rfl⟩
  case slt =>
    obtain ⟨⟨⟨rd, rfl⟩, rs, rfl⟩, rt, rfl⟩ := h
    exact ⟨.slt rd rs rt, rfl⟩
  case lui =>
    obtain ⟨⟨rd, rfl⟩, imm16, rfl⟩ := h
    exact ⟨.lui rd imm16, rfl⟩
  case lw =>
    obtain ⟨⟨⟨rd, rfl⟩, rs, rfl⟩, imm16, rfl⟩ := h
    exact ⟨.lw rd rs imm16, rfl⟩
  case sw =>
    obtain ⟨⟨⟨rt, rfl⟩, rs, rfl⟩, imm16, rfl⟩ := h
    exact ⟨.sw rt rs imm16, rfl⟩
  case beq =>
    obtain ⟨⟨⟨rs, rfl⟩, rt, rfl⟩, imm16, rfl⟩ := h
    exact ⟨.beq rs rt imm16, rfl⟩

/-- Settles O13: the row of an instruction reads its operands back from its encoding, and a
well-formed record is that of an instruction. -/
theorem decodeInvertsEncode : Obligations.DecodeInvertsEncode := by
  refine ⟨decode_encode, fun r hr => ?_⟩
  obtain ⟨i, rfl⟩ := Record.exists_instr_of_wellFormed hr
  exact ⟨i, i.toInstr_toRecord, rfl, decode_encode i⟩

/-! ### Encoding what a word decodes to (30_encoding.md section 3) -/

theorem formatI_fields {op : BitVec 6} (hop : w.toNat / 2 ^ 26 = op.toNat) :
    formatI op (fieldA w) (fieldB w) (fieldImm w) = w := by
  apply BitVec.eq_of_toNat_eq
  rw [formatI_toNat, fieldA_val, fieldB_val, fieldImm_toNat, ← hop]
  omega

theorem formatR_fields {funct : BitVec 6} (hop : w.toNat / 2 ^ 26 = 0)
    (hfunct : w.toNat % 2 ^ 11 = funct.toNat) :
    formatR (fieldA w) (fieldB w) (fieldC w) funct = w := by
  apply BitVec.eq_of_toNat_eq
  rw [formatR_toNat, fieldA_val, fieldB_val, fieldC_val, ← hfunct]
  omega

/-- R90: field `A` of a `lui` word is 0, as the encoder writes it. -/
theorem encode_lui_fields (h : w.toNat / 2 ^ 21 = 0x0F * 32) :
    encode (.lui (fieldB w) (fieldImm w)) = w := by
  have hA : fieldA w = 0 := by
    apply Fin.ext
    rw [fieldA_val, h]
    rfl
  have hop : w.toNat / 2 ^ 26 = (0x0F#6).toNat := by
    change _ = 15
    omega
  rw [encode, ← hA, formatI_fields hop]

/-- A row fixes every bit of its words outside the fields that it reads. -/
theorem encode_read (hr : r ∈ opcodeMap) (h : r.hits w = true) : encode (r.read w) = w := by
  simp only [opcodeMap, List.mem_cons, List.not_mem_nil, or_false] at hr
  rcases hr with rfl | rfl | rfl | rfl | rfl | rfl | rfl
  · obtain ⟨hop, hfunct⟩ := (rowAnd_hits w).1 h
    exact formatR_fields hop hfunct
  · exact formatI_fields ((rowAddi_hits w).1 h)
  · obtain ⟨hop, hfunct⟩ := (rowSlt_hits w).1 h
    exact formatR_fields hop hfunct
  · exact encode_lui_fields ((rowLui_hits w).1 h)
  · exact formatI_fields ((rowLw_hits w).1 h)
  · exact formatI_fields ((rowSw_hits w).1 h)
  · exact formatI_fields ((rowBeq_hits w).1 h)

/-- Settles O14: a legal word selects a row, and encoding the row's reading gives the word. -/
theorem encodeInvertsDecode : Obligations.EncodeInvertsDecode := by
  intro w i h
  obtain ⟨r, hr, hhits, rfl⟩ := (decode_eq_instr_iff w i).1 h
  exact encode_read hr hhits

/-! ### Which words are legal (30_encoding.md sections 3 and 4) -/

/-- Settles O15: two rows of one word have agreeing patterns, and the map holds no two such rows. -/
theorem opcodeRowsAreExclusive : Obligations.OpcodeRowsAreExclusive := fun w =>
  ⟨fun _ hr _ hr' => opcodeMap_eq_of_hits hr hr', decode_eq_illegal_iff w⟩

theorem extractLsb'_eq_iff (w : Word) (start len : Nat) (v : BitVec len) :
    w.extractLsb' start len = v ↔ w.toNat / 2 ^ start % 2 ^ len = v.toNat := by
  rw [← BitVec.toNat_inj, BitVec.extractLsb'_toNat, Nat.shiftRight_eq_div_pow]

/-- The legal words by the arithmetic of the seven rows. -/
theorem decode_ne_illegal_iff_rows (w : Word) :
    decode w ≠ .illegal ↔
      (w.toNat / 2 ^ 26 = 0 ∧ w.toNat % 2 ^ 11 = 0x24) ∨ w.toNat / 2 ^ 26 = 0x08 ∨
      (w.toNat / 2 ^ 26 = 0 ∧ w.toNat % 2 ^ 11 = 0x2A) ∨ w.toNat / 2 ^ 21 = 0x0F * 32 ∨
      w.toNat / 2 ^ 26 = 0x23 ∨ w.toNat / 2 ^ 26 = 0x2B ∨ w.toNat / 2 ^ 26 = 0x04 := by
  rw [decode_ne_illegal_iff]
  simp only [opcodeMap, List.exists_mem_cons_iff, List.not_mem_nil, false_and, exists_false,
    or_false, rowAnd_hits, rowAddi_hits, rowSlt_hits, rowLui_hits, rowLw_hits, rowSw_hits,
    rowBeq_hits]

/-- Settles O16: the fields of the summary and the rows are the same divisions of the word. -/
theorem legalWordsByOpcode : Obligations.LegalWordsByOpcode := by
  intro w
  have := w.isLt
  rw [decode_ne_illegal_iff_rows]
  simp only [extractLsb'_eq_iff, BitVec.toNat_ofNat]
  omega

/-- Settles O17, by running the decoder on the nine words. -/
theorem sampleWordsDecode : Obligations.SampleWordsDecode := by
  unfold Obligations.SampleWordsDecode
  decide

end Sys2Proof

/-! ### When a step raises the other two faults (60_exceptions.md sections 1 and 4) -/

namespace Sys2Proof.Machine
variable {s : State} {i : Instr} {f : Fault} {a w : Word}

theorem exec_memoryAccess_iff :
    exec i s = .fault (.memoryAccess a) ↔
      ∃ r rs imm16, (i = .lw r rs imm16 ∨ i = .sw r rs imm16) ∧
        s.dataAddrOK (s.effAddr rs imm16) = false ∧ a = s.effAddr rs imm16 := by
  constructor
  · intro h
    obtain ⟨r, rs, imm16, hi, hbad, hf⟩ := exec_fault_cases h
    exact ⟨r, rs, imm16, hi, hbad, Fault.memoryAccess.inj hf⟩
  · rintro ⟨r, rs, imm16, rfl | rfl, hbad, rfl⟩
    · rw [exec_lw, hbad, if_neg Bool.false_ne_true]
    · rw [exec_sw, hbad, if_neg Bool.false_ne_true]

/-- Fetch and decode raise the other two faults only. -/
theorem State.fetchDecode_ne_memoryAccess (s : State) (a : Word) :
    s.fetchDecode ≠ .error (.memoryAccess a) := by
  intro h
  rcases (s.fetchDecode_error_iff _).1 h with hfetch | ⟨_, _, _, hf⟩
  · obtain ⟨_, hf⟩ := (s.fetch_error_iff _ _).1 hfetch
    cases hf
  · cases hf

theorem step_memoryAccess_iff :
    step s = .fault (.memoryAccess a) ↔
      ∃ r rs imm16, (s.fetchDecode = .ok (.lw r rs imm16) ∨ s.fetchDecode = .ok (.sw r rs imm16)) ∧
        s.dataAddrOK (s.effAddr rs imm16) = false ∧ a = s.effAddr rs imm16 := by
  rw [step_fault_iff, or_iff_right (s.fetchDecode_ne_memoryAccess a)]
  constructor
  · rintro ⟨i, hfetch, he⟩
    obtain ⟨r, rs, imm16, rfl | rfl, haddr⟩ := exec_memoryAccess_iff.1 he
    · exact ⟨r, rs, imm16, .inl hfetch, haddr⟩
    · exact ⟨r, rs, imm16, .inr hfetch, haddr⟩
  · rintro ⟨r, rs, imm16, hfetch | hfetch, haddr⟩
    · exact ⟨_, hfetch, exec_memoryAccess_iff.2 ⟨r, rs, imm16, .inl rfl, haddr⟩⟩
    · exact ⟨_, hfetch, exec_memoryAccess_iff.2 ⟨r, rs, imm16, .inr rfl, haddr⟩⟩

theorem State.dataAddrOK_eq_false_iff (s : State) (a : Word) :
    s.dataAddrOK a = false ↔ a.extractLsb' 0 2 ≠ 0#2 ∨ s.params.dmemWords ≤ a.toNat / 4 := by
  rw [← Bool.not_eq_true, State.dataAddrOK_iff_lowBits, not_and_or, Nat.not_lt]

/-- Settles O39: only a load or store raises the fault, on the address that fails the check. -/
theorem memoryFaultExactly : Obligations.MemoryFaultExactly := by
  intro s a
  simp only [step_memoryAccess_iff, State.dataAddrOK_eq_false_iff]
  constructor
  · rintro ⟨r, rs, imm16, hfetch, hbad, rfl⟩
    exact ⟨r, rs, imm16, hfetch, rfl, hbad⟩
  · rintro ⟨r, rs, imm16, hfetch, rfl, hbad⟩
    exact ⟨r, rs, imm16, hfetch, hbad, rfl⟩

/-- The illegal-instruction fault comes from the decode of the word at the pc. -/
theorem step_illegalInstruction_iff :
    step s = .fault (.illegalInstruction a w) ↔
      a = s.pc ∧ s.fetch s.pc = .ok w ∧ decode w = .illegal := by
  rw [step_fault_iff, State.fetchDecode_error_iff]
  constructor
  · rintro ((hfetch | ⟨w', hfetch, hdecode, hf⟩) | ⟨i, _, he⟩)
    · obtain ⟨_, hf⟩ := (s.fetch_error_iff _ _).1 hfetch
      cases hf
    · cases hf
      exact ⟨rfl, hfetch, hdecode⟩
    · obtain ⟨_, _, _, _, _, hf⟩ := exec_fault_cases he
      cases hf
  · rintro ⟨rfl, hfetch, hdecode⟩
    exact .inl (.inr ⟨w, hfetch, hdecode, rfl⟩)

/-- Settles O40: the word fetched is illegal, which is to select no row of the map. -/
theorem illegalInstructionFaultExactly : Obligations.IllegalInstructionFaultExactly := by
  intro s a w
  simp only [step_illegalInstruction_iff, decode_eq_illegal_iff, ← Bool.not_eq_true,
    EncodingRow.hits_iff, ne_eq]

/-- Settles O42: each of the three faults reports what its cause fixes. -/
theorem faultReportNamesTheAddress : Obligations.FaultReportNamesTheAddress := by
  intro s f h
  cases f with
  | programCounterOutOfRange addr =>
    obtain ⟨haddr, _⟩ := (programCounterFaultExactly s addr).1 h
    simp [Fault.report, haddr]
  | illegalInstruction addr word =>
    obtain ⟨haddr, hfetch, _⟩ := step_illegalInstruction_iff.1 h
    simp [Fault.report, haddr, hfetch]
  | memoryAccess addr =>
    obtain ⟨r, rs, imm16, hfetch, _, haddr⟩ := step_memoryAccess_iff.1 h
    simpa [Fault.report] using ⟨r, rs, imm16, hfetch, haddr⟩

/-- Settles O41: the state of a fault is left by no positive budget. -/
theorem faultIsSticky : Obligations.FaultIsSticky := by
  intro s f h
  refine ⟨run_succ_of_fault h, fun n t hrun => ?_⟩
  cases n with
  | zero => exact (RunResult.done.inj hrun).symm
  | succ n =>
    rw [run_succ_of_fault h] at hrun
    cases hrun

/-! ### The step and the word at the pc (40_execution_loop.md R122 to R124) -/

theorem State.fetchDecode_of_decode (hfetch : s.fetch s.pc = .ok w) (hdecode : decode w = .instr i) :
    s.fetchDecode = .ok i :=
  (s.fetchDecode_ok_iff i).2 ⟨w, hfetch, hdecode⟩

/-- Settles O30: fetch and decode answer the instruction, and every instruction is well formed. -/
theorem stepRunsTheDecodedInstruction : Obligations.StepRunsTheDecodedInstruction :=
  fun s _ i hfetch hdecode => ⟨i.toRecord_wellFormed,
    step_eq_exec s i (State.fetchDecode_of_decode hfetch hdecode)⟩

/-! ### A program given as records (30_encoding.md R80, R94) -/

/-- R57: the fetch at byte address `4 * k` answers the word of slot `k`. -/
theorem State.fetch_of_slot {k : Nat} (ha : a.toNat = 4 * k)
    (hw : s.params.program[k]? = some w) : s.fetch a = .ok w := by
  obtain ⟨hlt, rfl⟩ := List.getElem?_eq_some_iff.1 hw
  have hk : a.toNat / 4 = k := by omega
  have haligned : a.toNat % 4 = 0 := by omega
  rw [State.fetch_of_lt (by rwa [hk]) ((lowBits_eq_zero_iff a).2 haligned)]
  simp only [hk]

theorem State.mem_program_of_fetch (h : s.fetch a = .ok w) : w ∈ s.params.program := by
  rcases s.fetch_cases a with ⟨w', _, hw, hok⟩ | ⟨_, herror⟩
  · obtain rfl := Except.ok.inj (hok.symm.trans h)
    exact List.mem_of_getElem? hw
  · rw [herror] at h
    cases h

/-- A word of a program given as records is the encoding of one of them, hence legal. -/
theorem decode_ne_illegal_of_mem_programOfRecords {l : List Instr}
    (h : w ∈ programOfRecords l) : decode w ≠ .illegal := by
  obtain ⟨i, _, rfl⟩ := List.mem_map.1 h
  simp [decode_encode]

/-- Settles O48: the slot of a record holds its encoding, which decodes to it. -/
theorem programOfRecordsRunsThem : Obligations.ProgramOfRecordsRunsThem := by
  refine fun s l hprogram => ⟨fun k i hi hpc => ?_, fun a w hfault => ?_⟩
  · have hslot : s.params.program[k]? = some (encode i) := by
      simp [hprogram, programOfRecords, hi]
    exact step_eq_exec s i
      (State.fetchDecode_of_decode (State.fetch_of_slot hpc hslot) (decode_encode i))
  · obtain ⟨_, hfetch, hillegal⟩ := step_illegalInstruction_iff.1 hfault
    have hmem := State.mem_program_of_fetch hfetch
    exact decode_ne_illegal_of_mem_programOfRecords (hprogram ▸ hmem) hillegal

end Sys2Proof.Machine

/-! ### Idioms and labels of the branch (43_branch.md R184, 30_encoding.md R107) -/

namespace Sys2Proof.Machine
variable {s t : State} {a b : Word} {n : Nat}

theorem sltResult_eq_zero_iff : sltResult a b = 0 ↔ ¬a.toInt < b.toInt := by
  by_cases h : a.toInt < b.toInt
  · simp [sltResult_of_lt h, h]
  · simp [sltResult_of_not_lt h, h]

/-- R184: `slt` into a temporary, then `beq` of it against register 0. -/
theorem exec_slt_beq (s : State) {rd : Reg} (hrd : rd ≠ 0) (rs rt : Reg) (imm16 : Half) :
    ∃ t u, exec (.slt rd rs rt) s = .next t ∧ exec (.beq rd 0 imm16) t = .next u ∧
      u.pc = if (s.readReg rs).toInt < (s.readReg rt).toInt then t.pc + 4
        else t.branchTarget imm16 := by
  refine ⟨_, _, exec_slt s rd rs rt, exec_beq _ rd 0 imm16, ?_⟩
  rw [State.readReg_retire_same s hrd, State.readReg_zero]
  simp only [sltResult_eq_zero_iff, ite_not, State.setPc_pc]
  rfl

/-- Settles O28: a register equals itself, and the word `slt` writes is 0 when not less. -/
theorem branchIdioms : Obligations.BranchIdioms :=
  ⟨fun _ _ imm16 => ⟨_, exec_beq_of_eq rfl imm16, rfl⟩,
    fun s _ rs rt imm16 hrd => exec_slt_beq s hrd rs rt imm16⟩

/-- R106: a field that the assembler accepts reads as the literal it was made of. -/
theorem signedField_toInt {v : Int} {f : Half} (h : signedField v = some f) : f.toInt = v := by
  unfold signedField at h
  split at h
  case isTrue hrange =>
    obtain rfl := Option.some.inj h
    rw [BitVec.toInt_ofInt]
    exact Int.bmod_eq_of_le (by omega) (by omega)
  case isFalse => cases h

/-- R107: the target of the field made for a label is the label's address. -/
theorem State.branchTarget_of_branchField {b l : Nat} {f : Half} (hfield : branchField b l = some f)
    (hpc : s.pc.toNat = 4 * b) (hl : l < 2 ^ 30) : (s.branchTarget f).toNat = 4 * l := by
  have htarget := s.branchTarget_toNat f
  rw [sext32_toInt, signedField_toInt hfield] at htarget
  omega

/-- Settles O49: the taken branch goes to its target, the address of the label's slot. -/
theorem branchToALabelReachesIt : Obligations.BranchToALabelReachesIt :=
  fun _ _ _ f _ _ hfield hpc hl heq =>
    ⟨_, exec_beq_of_eq heq f, State.branchTarget_of_branchField hfield hpc hl⟩

/-! ### Fixed points of the step (40_execution_loop.md R131) -/

theorem State.nextPc_ne_pc (s : State) : s.nextPc ≠ s.pc := by
  rw [State.nextPc]
  bv_omega

/-- A completed step that leaves the pc where it was is a taken branch to itself. -/
theorem self_branch_of_step_pc_eq (hstep : step s = .next t) (hpc : t.pc = s.pc) :
    ∃ rs rt, s.fetchDecode = .ok (.beq rs rt 0xFFFF#16) ∧ s.readReg rs = s.readReg rt := by
  obtain ⟨i, hfetch, he⟩ := (step_next_iff s t).1 hstep
  rcases exec_next_cases he with ⟨rd, _, rfl⟩ | ⟨rt, rs, imm16, _, _, rfl⟩ |
    ⟨rs, rt, imm16, rfl, rfl⟩
  · exact absurd ((s.retire_pc rd _).symm.trans hpc) s.nextPc_ne_pc
  · exact absurd hpc s.nextPc_ne_pc
  · rw [State.setPc_pc] at hpc
    split at hpc
    case isTrue heq =>
      obtain rfl := (s.branchTarget_eq_pc_iff imm16).1 hpc
      exact ⟨rs, rt, hfetch, heq⟩
    case isFalse => exact absurd hpc s.nextPc_ne_pc

theorem fixedPoint_iff_self_branch (s : State) :
    FixedPoint s ↔ ∃ rs rt, s.fetchDecode = .ok (.beq rs rt 0xFFFF#16) ∧
      s.readReg rs = s.readReg rt := by
  constructor
  · exact fun h => self_branch_of_step_pc_eq h rfl
  · rintro ⟨rs, rt, hfetch, heq⟩
    exact fixedPoint_of_self_branch hfetch heq

/-- Settles O37: a step that keeps the pc is a self-branch, and a self-branch is a fixed point. -/
theorem fixedPointsAreSelfBranches : Obligations.FixedPointsAreSelfBranches := fun s =>
  ⟨fixedPoint_iff_self_branch s, fun _ hstep hnot hpc =>
    hnot ((fixedPoint_iff_self_branch s).2 (self_branch_of_step_pc_eq hstep hpc))⟩

/-! ### What every step, and every run, preserves (40_execution_loop.md R133) -/

theorem step_pc_mod_four (hstep : step s = .next t) (hpc : s.pc.toNat % 4 = 0) :
    t.pc.toNat % 4 = 0 := by
  obtain ⟨i, _, he⟩ := (step_next_iff s t).1 hstep
  have hnext := State.nextPc_mod_four hpc
  rcases exec_next_cases he with ⟨rd, _, rfl⟩ | ⟨_, _, _, _, _, rfl⟩ | ⟨rs, rt, imm16, _, rfl⟩
  · rw [s.retire_pc]
    exact hnext
  · exact hnext
  · rw [State.setPc_pc]
    split
    · exact State.branchTarget_mod_four hpc imm16
    · exact hnext

@[simp] theorem State.snapshotMemory_length (s : State) :
    s.snapshotMemory.length = s.params.dmemWords := by
  simp [State.snapshotMemory]

/-- Settles O33: from the one effect of the step and its frame. -/
theorem everyStepPreserves : Obligations.EveryStepPreserves := by
  intro s t hm hstep
  have hparams := step_params hstep
  refine ⟨t.readReg_zero, step_pc_mod_four hstep, hparams, by simp [hparams], ?_⟩
  obtain ⟨i, hfetch, heffect⟩ := oneEffectPerStep s t hm hstep
  refine ⟨i, hfetch, ?_⟩
  rcases heffect with ⟨rd, v, hd, hw⟩ | ⟨rt, rs, imm16, hi, hw⟩ | ⟨rs, rt, imm16, hi, hmove⟩
  · exact .inl ⟨rd, hd, hw.others, hw.cells⟩
  · exact .inr (.inl ⟨rt, rs, imm16, hi, hw.regs, hw.others⟩)
  · exact .inr (.inr ⟨rs, rt, imm16, hi, hmove.regs, hmove.cells⟩)

/-- Settles O47: the snapshots list the reads of the registers and of the cells. -/
theorem snapshotsShowTheState : Obligations.SnapshotsShowTheState := by
  refine fun s => ⟨fun i => ?_, ?_, s.snapshotMemory_length, fun j hj => ?_⟩
  · simp [State.snapshotRegisters]
  · simp [State.snapshotRegisters]
  · simp [State.snapshotMemory, hj]

/-- What holds where a run starts, and is kept by each step that the run takes, holds where the run
ends. -/
theorem run_done_induction {P : State → Prop} (hrun : run n s = .done t) (hs : P s)
    (hstep : ∀ k m m', k < n → run k s = .done m → step m = .next m' → P m → P m') : P t := by
  induction n generalizing s with
  | zero =>
    obtain rfl : s = t := by simpa using hrun
    exact hs
  | succ n ih =>
    rcases step_next_or_fault s with ⟨s', hs'⟩ | ⟨f, hf⟩
    · rw [run_succ_of_next hs'] at hrun
      refine ih hrun (hstep 0 s s' (Nat.succ_pos n) rfl hs' hs) fun k m m' hk hm => ?_
      rw [← run_succ_of_next hs' k] at hm
      exact hstep (k + 1) m m' (Nat.succ_lt_succ hk) hm
    · rw [run_succ_of_fault hf] at hrun
      cases hrun

theorem run_params (hrun : run n s = .done t) : t.params = s.params :=
  run_done_induction (P := fun m => m.params = s.params) hrun rfl
    fun _ _ _ _ _ hstep hm => (step_params hstep).trans hm

theorem run_keeps_inv (hrun : run n s = .done t) (hs : s.Inv) : t.Inv :=
  run_done_induction hrun hs fun _ m m' _ _ hstep => (invariantKeptByEveryStep m m' · hstep)

/-! ### Reset, and the states reachable from it (10_state.md R27, 70_reset_and_hazards.md R230) -/

theorem Params.standard_admissible : Params.standard.Admissible := by decide

theorem State.resetWith_inv {p : Params} (h : p.Admissible) : (State.resetWith p).Inv :=
  have ⟨_, _, _, hentry⟩ := h
  ⟨h, hentry, Memory.wf_nil, fun _ he => nomatch he⟩

/-- Settles O35: reset lists no cell and puts the pc at an aligned `ENTRY`. -/
theorem invariantHoldsAtReset : Obligations.InvariantHoldsAtReset :=
  ⟨State.resetWith_inv Params.standard_admissible, fun _ => State.resetWith_inv⟩

/-- Settles O36: the invariant and the parameters along the run from reset. -/
theorem reachableStatesMeetTheInvariant : Obligations.ReachableStatesMeetTheInvariant := by
  rintro p s hp ⟨n, hrun⟩
  have hinv := run_keeps_inv hrun (State.resetWith_inv hp)
  exact ⟨hinv, run_params hrun, (lowBits_eq_zero_iff s.pc).2 hinv.pc_mod_four⟩

theorem State.hostReset_congr (h : s.params = t.params) : s.hostReset = t.hostReset := by
  rw [State.hostReset, State.hostReset, h]

/-- Settles O44: the reset state depends on the parameters only, and a run keeps them. -/
theorem hostResetForgetsTheState : Obligations.HostResetForgetsTheState := fun _ _ hparams =>
  ⟨State.hostReset_congr hparams, rfl, fun _ _ hrun => by
    rw [State.hostReset, run_params hrun, State.resetWith_params, State.hostReset]⟩

/-- Two runs from one state that both come to a fixed point come to the same: the longer budget is
the sum of both. -/
theorem fixedPoint_unique {s₀ : State} {m : Nat} (hs : run m s₀ = .done s) (ht : run n s₀ = .done t)
    (hfs : FixedPoint s) (hft : FixedPoint t) : t = s := by
  have hs' : run (m + n) s₀ = .done s := by rw [run_add_of_done hs, run_of_fixedPoint hfs]
  have ht' : run (n + m) s₀ = .done t := by rw [run_add_of_done ht, run_of_fixedPoint hft]
  rw [Nat.add_comm, ht'] at hs'
  exact RunResult.done.inj hs'

/-- Settles O46: a run stays in a fixed point, and two normal ends of one reset state are the state
under the sum of their budgets. -/
theorem normalEndIsStableAndUnique : Obligations.NormalEndIsStableAndUnique := by
  rintro p s ⟨⟨m, hrun⟩, hfix⟩
  refine ⟨run_of_fixedPoint hfix, ?_⟩
  rintro s' ⟨⟨n, hrun'⟩, hfix'⟩
  exact fixedPoint_unique hrun hrun' hfix hfix'

/-! ### A load after the latest store (20_memory.md R62) -/

theorem exec_keeps_wf {i : Instr} (hm : Memory.wf s.dmem) (he : exec i s = .next t) :
    Memory.wf t.dmem := by
  rcases exec_next_cases he with ⟨rd, _, rfl⟩ | ⟨rt, rs, imm16, _, _, rfl⟩ |
    ⟨rs, rt, imm16, _, rfl⟩
  · rw [s.retire_dmem]
    exact hm
  · exact Memory.wf_store s.dmem _ _ hm
  · exact hm

theorem step_keeps_wf (hm : Memory.wf s.dmem) (hstep : step s = .next t) : Memory.wf t.dmem := by
  obtain ⟨i, _, he⟩ := (step_next_iff s t).1 hstep
  exact exec_keeps_wf hm he

/-- What a load of the good address `a` needs to give `v`, and what every step keeps that does not
store to `a`. -/
structure State.Holds (s : State) (a v : Word) : Prop where
  wf : Memory.wf s.dmem
  addrOK : s.dataAddrOK a = true
  cell : s.cell (wordIndex a) = v

theorem State.dataAddrOK_congr (h : t.params = s.params) (a : Word) :
    t.dataAddrOK a = s.dataAddrOK a := by
  rw [State.dataAddrOK, State.dataAddrOK, h]

theorem step_sw_holds {rt rs : Reg} {imm16 : Half} (hm : Memory.wf s.dmem)
    (hfetch : s.fetchDecode = .ok (.sw rt rs imm16)) (hstep : step s = .next t) :
    t.Holds (s.effAddr rs imm16) (s.readReg rt) := by
  have hwf := step_keeps_wf hm hstep
  rw [step_eq_exec s _ hfetch, exec_sw] at hstep
  split at hstep
  case isTrue hok =>
    cases hstep
    exact ⟨hwf, hok, State.cell_storeCell_same hm _ _⟩
  case isFalse => cases hstep

theorem State.Holds.of_step {v : Word} (h : s.Holds a v) (hstep : step s = .next t)
    (hother : ∀ rt rs imm16, s.fetchDecode = .ok (.sw rt rs imm16) → s.effAddr rs imm16 ≠ a) :
    t.Holds a v := by
  refine ⟨step_keeps_wf h.wf hstep, ?_, ?_⟩
  · rw [State.dataAddrOK_congr (step_params hstep), h.addrOK]
  · by_contra hne
    rw [← h.cell] at hne
    obtain ⟨rt, rs, imm16, hfetch, haddr, _⟩ := onlyStoresChangeCells s t h.wf hstep _ hne
    refine hother rt rs imm16 hfetch (BitVec.eq_of_toNat_eq ?_)
    rw [State.effAddr_eq, haddr, State.toNat_eq_of_dataAddrOK h.addrOK]

theorem State.Holds.lw_reads {v : Word} {rb : Reg} {off : Half} (h : s.Holds (s.effAddr rb off) v)
    (rd : Reg) :
    ∃ w, exec (.lw rd rb off) s = .next w ∧ w.readReg rd = if rd = 0 then 0 else v := by
  refine ⟨_, (exec_lw s rd rb off).trans (if_pos h.addrOK), ?_⟩
  rw [h.cell]
  exact (s.retire_writesRegister rd v).dest

/-- Settles O12: the store makes the address hold the word, and each step of the run that stores
elsewhere, or not at all, keeps it there. -/
theorem loadReturnsLatestStore : Obligations.LoadReturnsLatestStore := by
  intro s t u rt rs imm16 n hm hfetch hstep hrun hother rd rb off haddr
  have hu : u.Holds (s.effAddr rs imm16) (s.readReg rt) :=
    run_done_induction (P := (State.Holds · (s.effAddr rs imm16) (s.readReg rt))) hrun
      (step_sw_holds hm hfetch hstep) fun k m _ hk hmrun hmstep hmholds =>
        hmholds.of_step hmstep (hother k m hk hmrun)
  rw [← haddr] at hu
  exact hu.lw_reads rd

end Sys2Proof.Machine
